-- ==== Sys2Proof/Word.lean ====
section
/-! DEFINITION. The word types of the encoder and nothing else. -/

namespace Sys2Proof

/-- A packed byte, a byte of `OUT`, a colour channel, a command (R7, R51, R60). -/
abbrev Byte := BitVec 8

/-- A pixel word, red in bits 23:16, green in 15:8, blue in 7:0 (R50). -/
abbrev Pixel := BitVec 24

/-- A dimension register (R9, `DIM_BITS = 16`; log 9) or `OUT_LEN` (R23). -/
abbrev Dim := BitVec 16

/-- ASCII text, one character an element (R56, R108). -/
abbrev Text := List Char

end Sys2Proof
end

