-- ==== Sys2Proof/Syntax.lean ====
section
/-! DEFINITION. The three operations of the block, its registers, and the accesses its host can make. -/

namespace Sys2Proof

/-- The operations of `ENC`, one per row of spec/opcode_table.json (R2, R60).
None has an operand field (R61). -/
inductive Instr where
  /-- `VALIDATE`, command 0x00 (R70). -/
  | validate
  /-- `PACKPIXEL`, command 0x01 (R75). -/
  | packPixel
  /-- `ENCODE`, command 0x02 (R85). -/
  | encode
  deriving DecidableEq, Repr

/-- The seven registers (R22). -/
inductive Reg where
  | cmd
  | status
  | width
  | height
  | pixelIn
  | packed
  | outLen
  deriving DecidableEq, Repr

/-- One thing that can happen to the block from outside (R10, R66, R135).
Registers are named by number and written and read whole, as numbers (R22, R38).
Illegal accesses can be written down too, so that the model can say that it gives them no meaning. -/
inductive Event where
  /-- `WR n, v`: host write of the number `v` to register `n`.
  A write to register 0 (`CMD`) is a command (R18). -/
  | writeReg (n : Nat) (v : Nat)
  /-- `RD n`: host read of register `n`. -/
  | readReg (n : Nat)
  /-- `WRPIX`: host write of `PIX[a]`, one whole entry (R32). -/
  | writePix (a : Nat) (v : Pixel)
  /-- `RDPIX`: host read of `PIX[a]`. -/
  | readPix (a : Nat)
  /-- A host write of `OUT[k]`, for which the host has no right (R34, U4). -/
  | writeOut (k : Nat) (v : Byte)
  /-- `RDOUT k`: host read of `OUT[k]`. -/
  | readOut (k : Nat)
  /-- Reset, an event of the platform, between two accesses (R135, R137). -/
  | reset
  deriving DecidableEq, Repr

/-- What one host read gave back (R66): the access and the value, as a number (R38). -/
structure Answer where
  access : Event
  value : Nat
  deriving DecidableEq, Repr

end Sys2Proof
end

