-- ==== Sys2Proof/WellFormed.lean ====
section
/-! DEFINITION. Which operations and which host accesses the spec gives a meaning to. -/

namespace Sys2Proof

/-- Every operation is well-formed: none has an operand that could be out of range (R61, R63). -/
def Instr.wf : Instr → Bool
  | .validate => true
  | .packPixel => true
  | .encode => true

/-- A register write the spec allows (R22): `CMD` with one of the three codes (R60, R62), or one of
`WIDTH`, `HEIGHT`, `PIXEL_IN` with a value of the register's width (R12, R13, R14, R141). -/
def Event.writeRegWf (n v : Nat) : Bool :=
  match n with
  | 0 => v < 3
  | 2 => v < 65536
  | 3 => v < 65536
  | 4 => v < 16777216
  | _ => false

/-- An access within the host's rights, to a location that exists, with a value that fits
(R22, R33, R34, R62; U3 and U4 list the rest). -/
def Event.wf : Event → Bool
  | .writeReg n v => Event.writeRegWf n v
  | .readReg n => decide (1 ≤ n) && decide (n ≤ 6)
  | .writePix a _ => a < 1016
  | .readPix a => a < 1016
  | .writeOut _ _ => false
  | .readOut k => k < 1018
  | .reset => true

end Sys2Proof
end

