-- ==== Sys2Proof/Decode.lean ====
section
/-! DEFINITION. The opcode table, the decoder over any bytes, and the encoder (R60 to R64). -/

namespace Sys2Proof

/-- One row of the opcode map (R60, spec/opcode_table.json). -/
structure OpcodeRow where
  mnemonic : String
  mask : Byte
  pattern : Byte
  instr : Instr
  deriving DecidableEq, Repr

/-- The opcode map: "With mask 0xFF the match values are 0x00, 0x01, 0x02" (R60). -/
def opcodeTable : List OpcodeRow :=
  [ ⟨"VALIDATE", 0xFF#8, 0x00#8, .validate⟩,
    ⟨"PACKPIXEL", 0xFF#8, 0x01#8, .packPixel⟩,
    ⟨"ENCODE", 0xFF#8, 0x02#8, .encode⟩ ]

/-- The row covers the byte. -/
def OpcodeRow.covers (r : OpcodeRow) (b : Byte) : Bool := b &&& r.mask == r.pattern

/-- Why bytes are no command. -/
inductive DecodeError where
  /-- A reserved command value, 0x03 to 0xFF (R62). -/
  | reserved (b : Byte)
  /-- Not one byte: "There is one command length (8 bits)" (R64). -/
  | notOneByte (n : Nat)
  deriving DecidableEq, Repr

/-- The operation a command byte selects (R60); reserved values are rejected (R62). -/
def decode (b : Byte) : Except DecodeError Instr :=
  match opcodeTable.find? (fun r => r.covers b) with
  | some r => .ok r.instr
  | none => .error (.reserved b)

/-- The decoder over any bytes: a command is exactly one byte (R64). -/
def decodeBytes : List Byte → Except DecodeError Instr
  | [b] => decode b
  | bs => .error (.notOneByte bs.length)

/-- The field `op = CMD[1:0]` (R18, R60). -/
def opField : Instr → BitVec 2
  | .validate => 0#2
  | .packPixel => 1#2
  | .encode => 2#2

/-- The command byte: bits 7:2 zero, bits 1:0 the `op` field (R60). -/
def encode (i : Instr) : Byte := 0#6 ++ opField i

/-- The instruction the decoder reads from `nbits` bits of value `w`.
One byte is all a command has, so a value of more than a byte is none. -/
def decodeTableWord (nbits w : Nat) : Option Instr :=
  let v := w % 2 ^ nbits
  if v < 256 then (decode (BitVec.ofNat 8 v)).toOption else none

end Sys2Proof
end

