-- ==== Sys2Proof/Config.lean ====
section
/-! DEFINITION. The fixed parameters of the encoder (spec/00_scope.md section 4) and the one free value. -/

namespace Sys2Proof.Config

/-- `W_MIN`, the smallest valid width (R6). -/
abbrev wMin : Nat := 1

/-- `W_MAX`, the largest valid width (R6). -/
abbrev wMax : Nat := 127

/-- `H_REQ`, the one valid height (R6). -/
abbrev hReq : Nat := 8

/-- `HDR_BYTES`, the length of the width header (R8). -/
abbrev hdrBytes : Nat := 2

/-- `MAX_PIXELS`, the number of entries of `PIX` (R8, R30). -/
abbrev maxPixels : Nat := 1016

/-- `MAX_OUT`, the number of bytes of `OUT` (R8, R30). -/
abbrev maxOut : Nat := 1018

/-- `DECLARE_SIZE` of `RENDER`, false in the spec (R101, conflict C4). -/
def declareSize : Bool := false

/-- The wrap setting of "a minimal CLI" (R110). -/
def wrapMinimalCli : Option Nat := none

/-- The wrap setting of "a display-oriented variant" (R110). -/
def wrapDisplay : Option Nat := some 32

/-- Free value: one less than `EXIT_DECODE`.
No source gives the number, only that it is not zero (R120, D19; log 12). -/
opaque exitDecodePred : Nat

/-- `EXIT_DECODE`, the host's exit code on `DecodeFailure`: some non-zero number (R120, R134). -/
def exitDecode : Nat := exitDecodePred + 1

end Sys2Proof.Config
end

