-- ==== Sys2Proof/Machine/State.lean ====
section
/-! DEFINITION. The state of the encoder as plain data, its value after reset, and why a step can stop. -/

namespace Sys2Proof.Machine

/-- A memory of `w`-bit entries: pairs of address and entry, addresses strictly rising.
An address that is not listed holds no value (R27; log 2). For `OUT`, `w` is 8 and a pair is a `Host.Cell`. -/
abbrev Memory (w : Nat) := List (Nat × BitVec w)

/-- The canonical form of a memory of `size` entries whose addresses are all at least `lo`. -/
def Memory.wfFrom {w : Nat} (size : Nat) : Nat → Memory w → Bool
  | _, [] => true
  | lo, (a, _) :: rest => decide (lo ≤ a) && decide (a < size) && Memory.wfFrom size (a + 1) rest

/-- The canonical form of a memory of `size` entries: addresses strictly rising and below `size`. -/
def Memory.wf {w : Nat} (size : Nat) (m : Memory w) : Bool := Memory.wfFrom size 0 m

/-- Which registers without a reset value have been written since reset (R27).
The model's own record (log 3): no step reads it. -/
structure Held where
  width : Bool
  height : Bool
  pixelIn : Bool
  packed : Bool
  deriving DecidableEq, Repr

/-- The machine: the block's registers and memories (R10), and the host beside it. -/
structure State where
  /-- `STATUS[1:0]`, the result code (R19); bits 7:2 have no storage (log 8). -/
  statusCode : BitVec 2
  /-- `WIDTH` (R12). -/
  width : Dim
  /-- `HEIGHT` (R13). -/
  height : Dim
  /-- `PIXEL_IN` (R14). -/
  pixelIn : Pixel
  /-- `PACKED` (R15). -/
  packed : Byte
  /-- `OUT_LEN` (R23). -/
  outLen : Dim
  /-- `PIX`, 1016 entries of 24 bits (R20). -/
  pix : Memory 24
  /-- `OUT`, 1018 bytes (R21). -/
  out : Memory 8
  /-- Which registers hold a value in the sense of R27 (log 3). -/
  held : Held
  /-- The accesses still to come, the next one first (R10, R41; log 4). -/
  pending : List Event
  /-- What the host's reads have given back, oldest first (R66; log 4). -/
  answers : List Answer
  deriving DecidableEq, Repr

/-- The state right after reset (R26, R135): `STATUS` 0 and `OUT_LEN` 0 are the spec's.
The zeros of `WIDTH`, `HEIGHT`, `PIXEL_IN` and `PACKED` are a DESIGN CHOICE (log 1).
Both memories list nothing, and nothing is pending. -/
def State.reset : State where
  statusCode := 0#2
  width := 0#16
  height := 0#16
  pixelIn := 0#24
  packed := 0#8
  outLen := 0#16
  pix := []
  out := []
  held := ⟨false, false, false, false⟩
  pending := []
  answers := []

/-- The block has no fault, so this type has no constructor: the spec's list of error kinds is closed at
two, `InvalidDimensions` is a next state (R118), `DecodeFailure` is the host's (R120), and everything else
that has no behaviour is refused (R124; log 6). -/
inductive Fault where
  deriving DecidableEq, Repr

/-- A situation to which the spec gives no meaning (R124, U1, U3, U4), one name for each (log 6). All are safe:
the machine stops where the spec gives no behaviour. -/
inductive Refusal where
  /-- An operation without a meaning yet. No arm answers it: all three operations have their meaning. -/
  | notModelled (mnemonic : String)
  /-- Raised by `ENCODE`, and by a host read, of a `PIX` entry that holds no value (R27, R93, U1). Safe. -/
  | unwrittenPix (a : Nat)
  /-- Raised by a host read of an `OUT` byte that holds no value (R27, R34, U1). Safe. -/
  | unwrittenOut (k : Nat)
  /-- Raised by a host access to a register number above 6 (R22, U4). Safe. -/
  | noSuchRegister (n : Nat)
  /-- Raised by a host access to `PIX` at an address above 1015 (R33, U4). Safe. -/
  | noSuchPixEntry (a : Nat)
  /-- Raised by a host access to `OUT` at an address above 1017 (R34, U4). Safe. -/
  | noSuchOutEntry (k : Nat)
  /-- Raised by a host write to `CMD` of a reserved value, 0x03 to 0xFF (R62, U3). Safe. -/
  | reservedCommand (v : Nat)
  /-- Raised by a host write to `STATUS`, `PACKED` or `OUT_LEN` (R22, U4). Safe. -/
  | writeReadOnly (n : Nat)
  /-- Raised by a host read of `CMD` (R18, R22, U4). Safe. -/
  | readOfCmd
  /-- Raised by a host write to `OUT` (R34, U4). Safe. -/
  | hostWriteOut (k : Nat)
  /-- Raised by a host write of a value that does not fit its register (R141; log 7). Safe. -/
  | valueTooWide (n : Nat) (v : Nat)
  deriving DecidableEq, Repr

end Sys2Proof.Machine
end

