-- ==== Sys2Proof/Machine/Flags.lean ====
section
/-! DEFINITION. The one condition of the block: the dimension check and the result code in `STATUS` (R17, R19, R71). -/

namespace Sys2Proof.Machine

/-- `dims_ok(w, h) = (w ≠ 0) and (w ≤ 127) and (h = 8)`, on unsigned values of the whole 16 bits (R71). -/
def dimsOk (w h : Dim) : Bool := w != 0#16 && decide (w ≤ 127#16) && h == 8#16

/-- The value `OK` of `STATUS` (R19). -/
def statusOk : Byte := 0x00#8

/-- The value `InvalidDimensions` of `STATUS` (R19, R118). -/
def statusInvalidDimensions : Byte := 0x01#8

/-- `STATUS` as it reads: bits 7:2 hardwired 0, bits 1:0 the code (R19). -/
def State.status (s : State) : Byte := 0#6 ++ s.statusCode

/-- `STATUS <- v`: only bits 1:0 have storage (R19). -/
def State.writeStatus (s : State) (v : Byte) : State := { s with statusCode := v.setWidth 2 }

end Sys2Proof.Machine
end

