-- ==== Sys2Proof/Machine/Operands.lean ====
section
/-! DEFINITION. Operand forms: channels of a pixel word, the packed byte, the width header, and the addresses `ENCODE` generates. -/

namespace Sys2Proof

/-- `red = v[23:16]` (R14, R50). -/
def Pixel.red (p : Pixel) : Byte := p.extractLsb' 16 8

/-- `green = v[15:8]` (R14, R50). -/
def Pixel.green (p : Pixel) : Byte := p.extractLsb' 8 8

/-- `blue = v[7:0]` (R14, R50). -/
def Pixel.blue (p : Pixel) : Byte := p.extractLsb' 0 8

/-- The word `{red, green, blue}` (R32, R50). -/
def Pixel.ofRgb (red green blue : Byte) : Pixel := red ++ green ++ blue

end Sys2Proof

namespace Sys2Proof.Machine

/-- `pack(red, green, blue)`, RPW's three expressions (R52, R76). -/
def pack (red green blue : Byte) : Byte :=
  (red &&& 0xE0#8) ||| ((green >>> 3) &&& 0x1C#8) ||| ((blue >>> 6) &&& 0x03#8)

/-- `pack` of the three channels of one pixel word (R75, R88). -/
def packOf (p : Pixel) : Byte := pack (Pixel.red p) (Pixel.green p) (Pixel.blue p)

/-- Header byte 0, the more significant byte of W: `(W >> 8) & 0xFF` (R38, R54, R90). -/
def headerHigh (w : Dim) : Byte := ((w >>> 8) &&& 0xFF#16).setWidth 8

/-- Header byte 1, the less significant byte of W: `W & 0xFF` (R38, R54, R90). -/
def headerLow (w : Dim) : Byte := (w &&& 0xFF#16).setWidth 8

/-- The address of pixel (i, j) in `PIX` (R31). -/
def pixAddr (i j : Nat) : Nat := 8 * i + j

/-- The index of pixel (i, j) in `OUT` (R35, R89). -/
def outIndex (i j : Nat) : Nat := 2 + 8 * i + j

/-- The order in which `ENCODE` visits the pixels: columns outer, the literal 8 rows inner (R85, R88, R89). -/
def walkOrder (w : Nat) : List (Nat × Nat) :=
  (List.range w).flatMap fun i => (List.range 8).map fun j => (i, j)

/-- The length of the PackedImage of a valid image of width w (R86). -/
def packedLength (w : Nat) : Nat := 2 + 8 * w

end Sys2Proof.Machine
end

