-- ==== Sys2Proof/Machine/Ops.lean ====
section
/-! DEFINITION. The named operations over the two memories and the registers, and raising `InvalidDimensions`. -/

namespace Sys2Proof.Machine

/-- The entry at address `b`, or nothing where none has been written (R27, R33, R34). -/
def Memory.read {w : Nat} : Memory w → Nat → Option (BitVec w)
  | [], _ => none
  | (a, v) :: rest, b => if b = a then some v else Memory.read rest b

/-- Writes one whole entry, keeping the addresses strictly rising (R32, R34). -/
def Memory.write {w : Nat} : Memory w → Nat → BitVec w → Memory w
  | [], b, v => [(b, v)]
  | (a, u) :: rest, b, v =>
    if b < a then (b, v) :: (a, u) :: rest
    else if b = a then (b, v) :: rest
    else (a, u) :: Memory.write rest b v

/-- `OUT[k] <- v` (R34, R92). -/
def State.storeOut (s : State) (k : Nat) (v : Byte) : State := { s with out := s.out.write k v }

/-- `OUT_LEN <- n` (R23). -/
def State.setOutLen (s : State) (n : Nat) : State := { s with outLen := BitVec.ofNat 16 n }

/-- `PACKED <- v` (R15); from then on the register holds a value (R27). -/
def State.setPacked (s : State) (v : Byte) : State :=
  { s with packed := v, held := { s.held with packed := true } }

/-- Host write of `WIDTH` (R12, R27). -/
def State.setWidth (s : State) (v : Dim) : State :=
  { s with width := v, held := { s.held with width := true } }

/-- Host write of `HEIGHT` (R13, R27). -/
def State.setHeight (s : State) (v : Dim) : State :=
  { s with height := v, held := { s.held with height := true } }

/-- Host write of `PIXEL_IN` (R14, R27). -/
def State.setPixelIn (s : State) (v : Pixel) : State :=
  { s with pixelIn := v, held := { s.held with pixelIn := true } }

/-- Host write of `PIX[a]`, one whole entry (R32). -/
def State.storePix (s : State) (a : Nat) (v : Pixel) : State := { s with pix := s.pix.write a v }

/-- The host gets `v` back from its read (R66). A read changes nothing of the block (R33, R34). -/
def State.answer (s : State) (access : Event) (v : Nat) : State :=
  { s with answers := s.answers ++ [⟨access, v⟩] }

/-- `raise InvalidDimensions` (R118): `STATUS <- 0x01` and nothing else is written.
Nothing is saved, no vector is consulted, no mode changes; the operation ends and the host goes on.
There is no return from it, because there is no handler (R122). -/
def State.raiseInvalidDimensions (s : State) : State := s.writeStatus statusInvalidDimensions

/-- `raise InvalidDimensions` inside `ENCODE` (R87, R118): `OUT_LEN <- 0` as well. -/
def State.raiseInEncode (s : State) : State := s.raiseInvalidDimensions.setOutLen 0

end Sys2Proof.Machine
end

