-- ==== Sys2Proof/Machine/Encode.lean ====
section
/-! DEFINITION. The meaning of `ENCODE` (spec/42_encode.md). -/

namespace Sys2Proof.Machine

/-- The two header bytes, high byte first (R90). -/
def State.storeHeader (s : State) (w : Dim) : State :=
  (s.storeOut 0 (headerHigh w)).storeOut 1 (headerLow w)

/-- The walk of R85 over the pixels still to visit, `k` being the walk counter (R16):
each pixel is read, packed and appended. A pixel that holds no value has no packed byte (R27, R93):
the whole operation is refused and nothing of it is seen (R40; log 14). -/
def encodeWalk : List (Nat × Nat) → Nat → State → Host.Outcome State Fault Refusal
  | [], _, s => .next s
  | (i, j) :: rest, k, s =>
    match s.pix.read (pixAddr i j) with
    | some p => encodeWalk rest (k + 1) (s.storeOut k (packOf p))
    | none => .refused (.unwrittenPix (pixAddr i j))

/-- The end of a successful `ENCODE`: `OUT_LEN <- 2 + 8*w`, `STATUS <- 0x00` (R85, R86). -/
def State.finishEncode (s : State) (w : Dim) : State :=
  (s.setOutLen (packedLength w.toNat)).writeStatus statusOk

/-- `ENCODE` (R85): validates first (R87), then writes the header, the packed pixels in walk order,
the length and the status. -/
def execEncode (s : State) : Host.Outcome State Fault Refusal :=
  if dimsOk s.width s.height then
    match encodeWalk (walkOrder s.width.toNat) 2 (s.storeHeader s.width) with
    | .next t => .next (t.finishEncode s.width)
    | .fault f => .fault f
    | .refused r => .refused r
  else .next s.raiseInEncode

end Sys2Proof.Machine
end

