-- ==== Sys2Proof/Machine/PackPixel.lean ====
section
/-! DEFINITION. The meaning of `PACKPIXEL` (spec/41_packpixel.md). -/

namespace Sys2Proof.Machine

/-- `PACKPIXEL` (R75): packs the triple in `PIXEL_IN` into `PACKED`. Total: no error, `STATUS` untouched. -/
def execPackPixel (s : State) : Host.Outcome State Fault Refusal :=
  .next (s.setPacked (packOf s.pixelIn))

end Sys2Proof.Machine
end

