-- ==== Sys2Proof/Machine/Validate.lean ====
section
/-! DEFINITION. The meaning of `VALIDATE` (spec/40_validate.md). -/

namespace Sys2Proof.Machine

/-- `VALIDATE` (R70): the verdict on `WIDTH` and `HEIGHT` goes to `STATUS`; it looks at nothing else (R73). -/
def execValidate (s : State) : Host.Outcome State Fault Refusal :=
  if dimsOk s.width s.height then .next (s.writeStatus statusOk)
  else .next s.raiseInvalidDimensions

end Sys2Proof.Machine
end

