-- ==== Sys2Proof/Machine/Dispatch.lean ====
section
/-! DEFINITION. One arm per operation. -/

namespace Sys2Proof.Machine

def exec (i : Instr) (s : State) : Host.Outcome State Fault Refusal :=
  match i with
  | .validate => Sys2Proof.Machine.execValidate s
  | .packPixel => Sys2Proof.Machine.execPackPixel s
  | .encode => Sys2Proof.Machine.execEncode s

end Sys2Proof.Machine
end

