-- ==== Sys2Proof/Machine/Registers.lean ====
section
/-! DEFINITION. The register map of R22: numbers, and what each register reads as. -/

namespace Sys2Proof.Machine

/-- The register a number names; 7 and above name none (R22). -/
def regOfNumber : Nat → Option Reg
  | 0 => some .cmd
  | 1 => some .status
  | 2 => some .width
  | 3 => some .height
  | 4 => some .pixelIn
  | 5 => some .packed
  | 6 => some .outLen
  | _ => none

/-- The number a host read of the register returns (R22, R38); `CMD` cannot be read (R18). -/
def State.readReg? (s : State) : Reg → Option Nat
  | .cmd => none
  | .status => some s.status.toNat
  | .width => some s.width.toNat
  | .height => some s.height.toNat
  | .pixelIn => some s.pixelIn.toNat
  | .packed => some s.packed.toNat
  | .outLen => some s.outLen.toNat

end Sys2Proof.Machine
end

