-- ==== Sys2Proof/Machine/HostPort.lean ====
section
/-! DEFINITION. What each access of the host, and reset, does to the machine (R10, R22, R33, R34, R66, R135). -/

namespace Sys2Proof.Machine

/-- A host write of `v` to `CMD` (R18): runs the operation it selects to completion (R40). -/
def writeCmd (v : Nat) (s : State) : Host.Outcome State Fault Refusal :=
  if v < 256 then
    match decode (BitVec.ofNat 8 v) with
    | .ok i => exec i s
    | .error _ => .refused (.reservedCommand v)
  else .refused (.valueTooWide 0 v)

/-- A host write of `v` to register `n` (R22).
A value that does not fit the register cannot be written (R141; log 7). -/
def writeRegister (n v : Nat) (s : State) : Host.Outcome State Fault Refusal :=
  match regOfNumber n with
  | none => .refused (.noSuchRegister n)
  | some .cmd => writeCmd v s
  | some .width => if v < 2 ^ 16 then .next (s.setWidth (BitVec.ofNat 16 v)) else .refused (.valueTooWide n v)
  | some .height => if v < 2 ^ 16 then .next (s.setHeight (BitVec.ofNat 16 v)) else .refused (.valueTooWide n v)
  | some .pixelIn => if v < 2 ^ 24 then .next (s.setPixelIn (BitVec.ofNat 24 v)) else .refused (.valueTooWide n v)
  | some .status => .refused (.writeReadOnly n)
  | some .packed => .refused (.writeReadOnly n)
  | some .outLen => .refused (.writeReadOnly n)

/-- A host read of register `n` (R22). -/
def readRegister (n : Nat) (s : State) : Host.Outcome State Fault Refusal :=
  match regOfNumber n with
  | none => .refused (.noSuchRegister n)
  | some r =>
    match s.readReg? r with
    | some v => .next (s.answer (.readReg n) v)
    | none => .refused .readOfCmd

/-- A host write of `PIX[a]` (R32, R33). -/
def writePixel (a : Nat) (v : Pixel) (s : State) : Host.Outcome State Fault Refusal :=
  if a < Config.maxPixels then .next (s.storePix a v) else .refused (.noSuchPixEntry a)

/-- A host read of `PIX[a]` (R33); an entry that holds no value has no answer (R27). -/
def readPixel (a : Nat) (s : State) : Host.Outcome State Fault Refusal :=
  if a < Config.maxPixels then
    match s.pix.read a with
    | some v => .next (s.answer (.readPix a) v.toNat)
    | none => .refused (.unwrittenPix a)
  else .refused (.noSuchPixEntry a)

/-- A host write of `OUT[k]`: the host only reads `OUT` (R34, U4). -/
def writeOutByte (k : Nat) : Host.Outcome State Fault Refusal :=
  if k < Config.maxOut then .refused (.hostWriteOut k) else .refused (.noSuchOutEntry k)

/-- A host read of `OUT[k]` (R34), below or above `OUT_LEN`; a byte that holds no value has no answer (R27). -/
def readOutByte (k : Nat) (s : State) : Host.Outcome State Fault Refusal :=
  if k < Config.maxOut then
    match s.out.read k with
    | some v => .next (s.answer (.readOut k) v.toNat)
    | none => .refused (.unwrittenOut k)
  else .refused (.noSuchOutEntry k)

/-- Reset of the block (R26, R135). The host is another agent: what it has still to do and what it has
been told stay with it (log 5). -/
def State.resetBlock (s : State) : State :=
  { State.reset with pending := s.pending, answers := s.answers }

/-- One event, from access to completion (R10, R40, R147). -/
def handle (e : Event) (s : State) : Host.Outcome State Fault Refusal :=
  match e with
  | .writeReg n v => writeRegister n v s
  | .readReg n => readRegister n s
  | .writePix a v => writePixel a v s
  | .readPix a => readPixel a s
  | .writeOut k _ => writeOutByte k
  | .readOut k => readOutByte k s
  | .reset => .next s.resetBlock

/-- The next event is taken off the list and handled (R41).
With none left the block is idle and holds its state (R27, R133, R136; log 4). -/
def takeTurn (s : State) : Host.Outcome State Fault Refusal :=
  match s.pending with
  | [] => .next s
  | e :: rest => handle e { s with pending := rest }

/-- The command write that starts an operation (R60, R66). -/
def commandEvent (i : Instr) : Event := .writeReg 0 (encode i).toNat

/-- The listing line `WRPIX i, j, r, g, b` (R66). -/
def wrPix (i j : Nat) (r g b : Byte) : Event := .writePix (pixAddr i j) (Pixel.ofRgb r g b)

/-- The listing line `RDPIX i, j` (R66). -/
def rdPix (i j : Nat) : Event := .readPix (pixAddr i j)

end Sys2Proof.Machine
end

