-- ==== Sys2Proof/Machine/Step.lean ====
section
/-! DEFINITION. One step of the machine, and placing a command where the next step takes it. -/

namespace Sys2Proof.Machine

/-- One step: the next event of the host or the platform, start to finish (R40, R41). -/
def step (s : State) : Host.Outcome State Fault Refusal := takeTurn s

/-- `s` with the command of `nbits` bits of value `w` as the host's next access, a write to `CMD`
(R44: "selected by the value the host writes to CMD at that moment"; log 4). -/
def State.withFetchWord (s : State) (nbits w : Nat) : State :=
  { s with pending := .writeReg 0 (w % 2 ^ nbits) :: s.pending }

end Sys2Proof.Machine
end

