-- ==== Sys2Proof/Machine/Render.lean ====
section
/-! DEFINITION. The host functions `RENDER` and `PARSE` on the PackedImage (spec/43_host_render.md). -/

namespace Sys2Proof.Machine

/-- The opening brace, which no literal of this package may spell. -/
def leftBrace : Char := Char.ofNat 0x7B

/-- The closing brace. -/
def rightBrace : Char := Char.ofNat 0x7D

/-- A line break: the single character LF (R108). -/
def lineBreak : Char := Char.ofNat 0x0A

/-- The character of one decimal digit. -/
def digitChar (d : Nat) : Char := Char.ofNat (0x30 + d)

/-- `dec(v)` with `fuel` digits to spare: most significant digit first (R102). -/
def decDigits : Nat → Nat → Text
  | 0, v => [digitChar (v % 10)]
  | fuel + 1, v => if v < 10 then [digitChar v] else decDigits fuel (v / 10) ++ [digitChar (v % 10)]

/-- `dec(v)`: the shortest ASCII decimal numeral, no sign, no leading zero (R102). -/
def dec (v : Nat) : Text := decDigits v v

/-- `PROGMEM prog_uchar image[`, the opening up to the brackets (R101). -/
def openingHead : Text :=
  ['P', 'R', 'O', 'G', 'M', 'E', 'M', ' ', 'p', 'r', 'o', 'g', '_', 'u', 'c', 'h', 'a', 'r', ' ',
   'i', 'm', 'a', 'g', 'e', '[']

/-- `] = ` and the opening brace, the rest of the opening (R101). -/
def openingTail : Text := [']', ' ', '=', ' ', leftBrace]

/-- The opening for `n` bytes: the brackets are empty unless a size is declared (R101, conflict C4). -/
def opening (declareSize : Bool) (n : Nat) : Text :=
  openingHead ++ (if declareSize then dec n else []) ++ openingTail

/-- A line break follows the comma after pixel value number `m`, counted from 1 (R105). -/
def breakAfter : Option Nat → Nat → Bool
  | none, _ => false
  | some w, m => m % w == 0

/-- The pixel part, `m` pixel values being written already: a comma after every value but the last
(R103), a line break after every `wrap` values that are not the last (R105). -/
def renderPixels (wrap : Option Nat) : List Byte → Nat → Text
  | [], _ => []
  | [b], _ => dec b.toNat
  | b :: c :: rest, m =>
    dec b.toNat ++ [','] ++ (if breakAfter wrap (m + 1) then [lineBreak] else []) ++
      renderPixels wrap (c :: rest) (m + 1)

/-- The close of the literal: a line break, the brace, a semicolon, and nothing after it (R106). -/
def closing : Text := [lineBreak, rightBrace, ';']

/-- A byte sequence that a successful `ENCODE` could have produced: `0, W`, then `8*W` bytes,
`1 ≤ W ≤ 127` (R55, R100). -/
def isPackedImage : List Byte → Bool
  | hi :: lo :: pixels =>
    hi == 0#8 && decide (1 ≤ lo.toNat) && decide (lo.toNat ≤ 127) && pixels.length == 8 * lo.toNat
  | _ => false

/-- `WRAP` is `none` or an integer ≥ 1 (R100, R111). -/
def wrapOk : Option Nat → Bool
  | none => true
  | some w => decide (1 ≤ w)

/-- Why `RENDER` has no meaning (R111, U6). Both are safe: no text is given. -/
inductive RenderRefusal where
  /-- `WRAP` is 0. -/
  | wrapZero
  /-- The bytes are no PackedImage. -/
  | notPackedImage
  deriving DecidableEq, Repr

/-- The text of R107, whatever the bytes. -/
def renderText (declareSize : Bool) (wrap : Option Nat) : List Byte → Text
  | hi :: lo :: pixels =>
    opening declareSize (pixels.length + 2) ++
      (dec hi.toNat ++ [','] ++ dec lo.toNat ++ [','] ++ [lineBreak]) ++
      renderPixels wrap pixels 0 ++ closing
  | _ => []

/-- `RENDER(P, WRAP)` (R100, R107), refused by name outside its domain (R111; log 11).
Where `WRAP` is 0 and the bytes are no PackedImage too, the refusal names `wrapZero`: the spec refuses both
alike and gives no order (DESIGN CHOICE, log 15). -/
def render (declareSize : Bool) (wrap : Option Nat) (p : List Byte) : Except RenderRefusal Text :=
  if !wrapOk wrap then .error .wrapZero
  else if !isPackedImage p then .error .notPackedImage
  else .ok (renderText declareSize wrap p)

/-- The text after the first opening brace (R109). -/
def afterOpen (t : Text) : Text := (t.dropWhile (fun c => c != leftBrace)).drop 1

/-- The text before the last closing brace (R109). -/
def beforeClose (t : Text) : Text := ((t.reverse.dropWhile (fun c => c != rightBrace)).drop 1).reverse

/-- Splits at every comma: `piece` is the piece under way (R109). -/
def splitCommas : Text → Text → List Text
  | [], piece => [piece]
  | c :: rest, piece => if c == ',' then piece :: splitCommas rest [] else splitCommas rest (piece ++ [c])

/-- White space is a space or a line break (R109). -/
def isBlank (c : Char) : Bool := c == ' ' || c == lineBreak

/-- White space stripped from both ends (R109). -/
def strip (t : Text) : Text := ((t.dropWhile isBlank).reverse.dropWhile isBlank).reverse

/-- The value of a decimal digit character. -/
def digitVal (c : Char) : Option Nat :=
  if 0x30 ≤ c.toNat ∧ c.toNat ≤ 0x39 then some (c.toNat - 0x30) else none

/-- Reads digits after the value `acc` read so far. -/
def readDigits : Text → Nat → Option Nat
  | [], acc => some acc
  | c :: rest, acc =>
    match digitVal c with
    | some d => readDigits rest (10 * acc + d)
    | none => none

/-- A piece read as a decimal number; an empty piece is none. -/
def readDecimal : Text → Option Nat
  | [] => none
  | c :: rest => readDigits (c :: rest) 0

/-- Every piece read, or nothing if one cannot be. -/
def readPieces : List Text → Option (List Nat)
  | [] => some []
  | t :: rest =>
    match readDecimal (strip t), readPieces rest with
    | some v, some vs => some (v :: vs)
    | _, _ => none

/-- `PARSE(t)` (R109). -/
def parse (t : Text) : Option (List Nat) := readPieces (splitCommas (beforeClose (afterOpen t)) [])

end Sys2Proof.Machine
end

