-- ==== Sys2Proof/Machine/HostTool.lean ====
section
/-! DEFINITION. The host's single-shot use of the block: load, one `ENCODE`, read back, render or report (R119 to R122, R134, R140 to R145, R149). -/

namespace Sys2Proof.Machine

/-- A decoded image: its true dimensions and its columns, left index first, each a list of rows (R140). -/
structure Image where
  width : Nat
  height : Nat
  columns : List (List Pixel)
  deriving DecidableEq, Repr

/-- The columns are as many, and as high, as the dimensions say. -/
def Image.wf (img : Image) : Bool :=
  img.columns.length == img.width && img.columns.all fun c => c.length == img.height

/-- The dimensions the block accepts (R6). -/
def Image.dimsValid (img : Image) : Bool :=
  decide (Config.wMin ≤ img.width) && decide (img.width ≤ Config.wMax) && img.height == Config.hReq

/-- The number the host writes to a dimension register: the true one, or, where that does not fit 16
bits, one that fails validation the same way (R141; log 12). -/
def dimWritten (n : Nat) : Nat := min n 0xFFFF

/-- The writes of `WIDTH` and `HEIGHT` (R141). -/
def loadDims (img : Image) : List Event :=
  [.writeReg 2 (dimWritten img.width), .writeReg 3 (dimWritten img.height)]

/-- The writes of one column from row `j` down (R142). -/
def loadColumn (i : Nat) : Nat → List Pixel → List Event
  | _, [] => []
  | j, p :: rest => .writePix (pixAddr i j) p :: loadColumn i (j + 1) rest

/-- The writes of the columns from column `i` on (R142). -/
def loadColumns : Nat → List (List Pixel) → List Event
  | _, [] => []
  | i, c :: rest => loadColumn i 0 c ++ loadColumns (i + 1) rest

/-- The pixel loads: none when the dimensions are invalid, "the host need not write PIX at all" (R142). -/
def loadPixels (img : Image) : List Event := if img.dimsValid then loadColumns 0 img.columns else []

/-- The host's accesses up to the status (R145, R149): the loads, one `ENCODE`, `RD STATUS`, `RD OUT_LEN`. -/
def encodeAccesses (img : Image) : List Event :=
  loadDims img ++ loadPixels img ++ [commandEvent .encode, .readReg 1, .readReg 6]

/-- The read-back of the PackedImage, `RDOUT 0` to `RDOUT n-1` (R145). -/
def readBackAccesses (n : Nat) : List Event := (List.range n).map .readOut

/-- The machine run until the host's accesses `es` are all done. -/
def runAccesses (es : List Event) (s : State) : Host.Outcome State Fault Refusal :=
  Host.Core.run Sys2Proof.core es.length { s with pending := es }

/-- How a run of the tool ends (R134). -/
inductive ToolResult where
  /-- The RenderedLiteral has been written. -/
  | literal (t : Text)
  /-- The block reported `InvalidDimensions` (R119). -/
  | invalidDimensions
  /-- There was no readable image (R120). -/
  | decodeFailure
  deriving DecidableEq, Repr

/-- Why a run of the tool has no meaning: the block stopped, or `RENDER` was called outside its domain. -/
inductive ToolStop where
  /-- The block gave an access no meaning (R124); safe. -/
  | refused (r : Refusal)
  /-- `RENDER` outside its domain (R111); safe. -/
  | render (r : RenderRefusal)
  deriving DecidableEq, Repr

/-- The process exit code (R119, R120, R134). -/
def ToolResult.exitCode : ToolResult → Nat
  | .literal _ => 0
  | .invalidDimensions => 1
  | .decodeFailure => Config.exitDecode

/-- The message the host reports (R119). None is stated for `DecodeFailure`. -/
def ToolResult.message : ToolResult → Option String
  | .invalidDimensions =>
    some "image size must be between 1 and 127 pixels wide inclusive and 8 pixels tall"
  | _ => none

/-- The values of the answers, oldest first. -/
def answerValues (s : State) : List Nat := s.answers.map (·.value)

/-- The bytes among the answers, as `RENDER` takes them. -/
def answerBytes (s : State) : List Byte := (answerValues s).map (BitVec.ofNat 8)

/-- `RENDER` as the tool calls it. -/
def renderResult (wrap : Option Nat) (p : List Byte) : Except ToolStop ToolResult :=
  match render Config.declareSize wrap p with
  | .ok t => .ok (.literal t)
  | .error r => .error (.render r)

/-- After `ENCODE`: status before data (R145, R147). Code 0: `OUT[0 .. OUT_LEN-1]` is read back and
rendered. Any other: the error is reported and nothing is read or rendered (R112, R122). -/
def afterEncode (wrap : Option Nat) (s : State) : Except ToolStop ToolResult :=
  match answerValues s with
  | [0, n] =>
    match runAccesses (readBackAccesses n) { s with answers := [] } with
    | .next t => renderResult wrap (answerBytes t)
    | .fault f => nomatch f
    | .refused r => .error (.refused r)
  | _ => .ok .invalidDimensions

/-- One run of the tool, from reset, on what the image decoder gave (R121, R149):
no image is `DecodeFailure`, and the block is not touched (R120). -/
def runTool (wrap : Option Nat) : Option Image → Except ToolStop ToolResult
  | none => .ok .decodeFailure
  | some img =>
    match runAccesses (encodeAccesses img) State.reset with
    | .next s => afterEncode wrap s
    | .fault f => nomatch f
    | .refused r => .error (.refused r)

/-- The minimal CLI: no wrap (R110). -/
def runToolCli (img : Option Image) : Except ToolStop ToolResult := runTool Config.wrapMinimalCli img

/-- The display-oriented variant: wrap at 32 (R110). -/
def runToolDisplay (img : Option Image) : Except ToolStop ToolResult := runTool Config.wrapDisplay img

end Sys2Proof.Machine
end

