-- ==== Sys2Proof/Safety.lean ====
section
/-! DEFINITION. The terms claims use: the invariant of the machine, and runs that read only what was written. -/

namespace Sys2Proof.Machine

/-- The dimensions in the registers are valid (R6, R71), in numbers. -/
abbrev State.DimsValid (s : State) : Prop :=
  1 ≤ s.width.toNat ∧ s.width.toNat ≤ 127 ∧ s.height.toNat = 8

/-- Every pixel of the PixelGrid of width `w` holds a value (R142). -/
abbrev State.GridLoaded (s : State) (w : Nat) : Prop :=
  ∀ a, a < 8 * w → (s.pix.read a).isSome

/-- `STATUS` holds one of the two codes (R19: "Values 2 and 3 are never produced"). -/
abbrev State.StatusLegal (s : State) : Prop := s.status = 0x00#8 ∨ s.status = 0x01#8

/-- `OUT_LEN` is 0, or `2 + 8*W` for a valid W that the header in `OUT` holds too, and every byte below
it holds a value (R23, R35, R94). -/
def State.OutputLegal (s : State) : Prop :=
  s.outLen = 0#16 ∨
    ∃ w : Nat, 1 ≤ w ∧ w ≤ 127 ∧ s.outLen.toNat = 2 + 8 * w ∧
      s.out.read 0 = some 0#8 ∧ s.out.read 1 = some (BitVec.ofNat 8 w) ∧
      ∀ k, k < 2 + 8 * w → (s.out.read k).isSome

/-- The invariant every step keeps: both memories in canonical form within their sizes, a legal status,
a legal output. -/
structure State.Inv (s : State) : Prop where
  pixWf : s.pix.wf 1016 = true
  outWf : s.out.wf 1018 = true
  status : s.StatusLegal
  output : s.OutputLegal

/-- The operation's register operands hold a value in the sense of R27.
A run in which this holds at every command is one the spec gives a meaning (U1; log 1, 3). -/
def Instr.operandsHeld (i : Instr) (h : Held) : Bool :=
  match i with
  | .validate => h.width && h.height
  | .packPixel => h.pixelIn
  | .encode => h.width && h.height

/-- A host read of a register that holds a value in the sense of R27. -/
def readHeld (n : Nat) (h : Held) : Bool :=
  match n with
  | 2 => h.width
  | 3 => h.height
  | 4 => h.pixelIn
  | 5 => h.packed
  | _ => true

/-- The event reads no register that nothing has written since reset (R27).
(The memories say the same of themselves: an unwritten entry is not listed.) -/
def Event.readsHeld (e : Event) (h : Held) : Bool :=
  match e with
  | .writeReg 0 v =>
    match decode (BitVec.ofNat 8 v) with
    | .ok i => Instr.operandsHeld i h
    | .error _ => true
  | .readReg n => readHeld n h
  | _ => true

/-- The two states differ at most in registers that hold no value in the sense of R27. -/
structure State.AgreeOnHeld (s t : State) : Prop where
  statusCode : s.statusCode = t.statusCode
  outLen : s.outLen = t.outLen
  pix : s.pix = t.pix
  out : s.out = t.out
  held : s.held = t.held
  pending : s.pending = t.pending
  answers : s.answers = t.answers
  width : s.held.width = true → s.width = t.width
  height : s.held.height = true → s.height = t.height
  pixelIn : s.held.pixelIn = true → s.pixelIn = t.pixelIn
  packed : s.held.packed = true → s.packed = t.packed

/-- A list cut into lines of `w` elements, the last line shorter where it must be; `fuel` lines at most. -/
def linesOf {α : Type} (w : Nat) : Nat → List α → List (List α)
  | 0, l => [l]
  | fuel + 1, l => if l.length ≤ w then [l] else l.take w :: linesOf w fuel (l.drop w)

/-- The numerals of one line of values, one comma between two neighbours (R103). -/
def lineText (values : List Byte) : Text := List.intercalate [','] (values.map fun b => dec b.toNat)

/-- The pixel part of a literal as lines (R105): without wrap one line; with `WRAP = w` lines of `w`
values, each but the last closed by a comma and a line break. -/
def pixelPartText (wrap : Option Nat) (pixels : List Byte) : Text :=
  match wrap with
  | none => lineText pixels
  | some w => List.intercalate [',', lineBreak] ((linesOf w pixels.length pixels).map lineText)

/-- The packed bytes of the columns of an image, in walk order (R55, R89). -/
def Image.packedPixels (img : Image) : List Byte := img.columns.flatMap fun c => c.map packOf

/-- The PackedImage of an image of valid dimensions (R55): the width as a big-endian 16-bit number,
then the packed pixels, columns outer, rows inner. -/
def Image.packedImage (img : Image) : List Byte :=
  BitVec.ofNat 8 (img.width / 256) :: BitVec.ofNat 8 img.width :: img.packedPixels

end Sys2Proof.Machine
end

