-- ==== Sys2Proof/Certificates/Slice0/Obligations.lean ====
section
/-! DEFINITION. The statements for the provers, in the order of OBLIGATIONS.json. -/

open Sys2Proof Sys2Proof.Machine

/-! ### Commands -/

/-- R60, R62, R64: the decoder compares the whole byte with three values; every other value is reserved. -/
def Obligations.DecoderComparesWithThreeValues : Prop :=
  decode 0x00#8 = .ok .validate ∧ decode 0x01#8 = .ok .packPixel ∧ decode 0x02#8 = .ok .encode ∧
    ∀ b : Byte, 3 ≤ b.toNat → decode b = .error (.reserved b)

/-- R60: a command byte decodes to an operation exactly when it is that operation's encoding. -/
def Obligations.DecodeInvertsEncode : Prop :=
  ∀ i : Instr, i.wf = true ∧ decodeBytes [encode i] = .ok i ∧
    ∀ b : Byte, decode b = .ok i → b = encode i

/-- R18, R40: when the host's next access writes to `CMD` a value that decodes to an operation, the step
is that operation, run to completion, with the access taken off the list. -/
def Obligations.StepRunsDecodedCommand : Prop :=
  ∀ (s : State) (v : Nat) (i : Instr) (rest : List Event),
    s.pending = .writeReg 0 v :: rest → v < 256 → decode (BitVec.ofNat 8 v) = .ok i →
      step s = exec i { s with pending := rest }

/-- R62, U3: a command value 0x03 to 0xFF is refused, whatever the state. -/
def Obligations.ReservedCommandIsRefused : Prop :=
  ∀ (s : State) (v : Nat) (rest : List Event),
    s.pending = .writeReg 0 v :: rest → 0x03 ≤ v → v ≤ 0xFF →
      step s = .refused (.reservedCommand v)

/-! ### VALIDATE -/

/-- R71: the predicate on the whole 16 bits, and its three failing conditions. -/
def Obligations.DimsOkIsTheStatedRange : Prop :=
  ∀ w h : Dim,
    (dimsOk w h = true ↔ 1 ≤ w.toNat ∧ w.toNat ≤ 127 ∧ h.toNat = 8) ∧
    (dimsOk w h = false ↔ w.toNat = 0 ∨ 127 < w.toNat ∨ h.toNat ≠ 8)

/-- R70: `VALIDATE`, command 0x00, always completes, records the verdict in `STATUS` and changes nothing
else. That it completes also where `WIDTH` or `HEIGHT` was never written is the model's choice (log 1,
DESIGN CHOICE; R27 and U1 refuse it). -/
def Obligations.ValidateRecordsTheVerdict : Prop :=
  encode .validate = 0x00#8 ∧ ∀ s : State, ∃ t : State,
    exec .validate s = .next t ∧
    t.status = (if s.DimsValid then 0x00#8 else 0x01#8) ∧
    t = { s with statusCode := t.statusCode }

/-- R73: the verdict is a function of the two dimension registers alone. That both states complete
`VALIDATE` whether or not these were ever written is the model's choice (log 1, DESIGN CHOICE; R27). -/
def Obligations.ValidateLooksAtDimensionsOnly : Prop :=
  ∀ s₁ s₂ : State, s₁.width = s₂.width → s₁.height = s₂.height →
    ∃ t₁ t₂ : State, exec .validate s₁ = .next t₁ ∧ exec .validate s₂ = .next t₂ ∧
      t₁.status = t₂.status

/-- R122: after any error (or none) a host that writes valid dimensions gets `OK` from `VALIDATE`. -/
def Obligations.VerdictIsNotSticky : Prop :=
  ∀ (s : State) (w : Nat), 1 ≤ w → w ≤ 127 →
    s.pending = [.writeReg 2 w, .writeReg 3 8, .writeReg 0 0x00] →
      ∃ t : State, Host.Core.run Sys2Proof.core 3 s = .next t ∧ t.status = 0x00#8 ∧ t.pending = [] ∧
        t.out = s.out ∧ t.outLen = s.outLen

/-! ### PACKPIXEL -/

/-- R75: `PACKPIXEL`, command 0x01, always completes and changes nothing but `PACKED`. The record that
`PACKED` holds a value is the model's own (log 3, DESIGN CHOICE). That it completes also where `PIXEL_IN`
was never written is the model's choice (log 1, DESIGN CHOICE; R27 and U1 refuse it). -/
def Obligations.PackPixelPacksTheTriple : Prop :=
  encode .packPixel = 0x01#8 ∧ ∀ s : State, exec .packPixel s =
    .next { s with
      packed := pack (s.pixelIn.extractLsb' 16 8) (s.pixelIn.extractLsb' 8 8) (s.pixelIn.extractLsb' 0 8),
      held := { s.held with packed := true } }

/-- R76, R51: the packed byte is the concatenation of the top 3, 3 and 2 bits. -/
def Obligations.PackedByteBitLayout : Prop :=
  ∀ r g b : Byte,
    pack r g b = (r &&& 0xE0#8) ||| ((g >>> 3) &&& 0x1C#8) ||| ((b >>> 6) &&& 0x03#8) ∧
    pack r g b = r.extractLsb' 5 3 ++ g.extractLsb' 5 3 ++ b.extractLsb' 6 2 ∧
    (pack r g b).getLsbD 7 = r.getLsbD 7 ∧ (pack r g b).getLsbD 6 = r.getLsbD 6 ∧
    (pack r g b).getLsbD 5 = r.getLsbD 5 ∧ (pack r g b).getLsbD 4 = g.getLsbD 7 ∧
    (pack r g b).getLsbD 3 = g.getLsbD 6 ∧ (pack r g b).getLsbD 2 = g.getLsbD 5 ∧
    (pack r g b).getLsbD 1 = b.getLsbD 7 ∧ (pack r g b).getLsbD 0 = b.getLsbD 6

/-- R78 item 2: the packed byte in arithmetic. -/
def Obligations.PackedByteIsArithmetic : Prop :=
  ∀ r g b : Byte,
    (pack r g b).toNat = (r.toNat / 32) * 32 + (g.toNat / 32) * 4 + b.toNat / 64

/-- R78 item 3: every byte is the packed byte of exactly one triple with no dropped bit set. -/
def Obligations.EveryByteIsPackedOnce : Prop :=
  ∀ v : Byte, ∃ r g b : Byte,
    (r.toNat % 32 = 0 ∧ g.toNat % 32 = 0 ∧ b.toNat % 64 = 0 ∧ pack r g b = v) ∧
    ∀ r' g' b' : Byte, r'.toNat % 32 = 0 → g'.toNat % 32 = 0 → b'.toNat % 64 = 0 →
      pack r' g' b' = v → r' = r ∧ g' = g ∧ b' = b

/-- R53, R78 items 4 and 5: dropped bits have no effect, and the channels do not interfere. -/
def Obligations.PackDropsLowBitsAndSeparatesChannels : Prop :=
  ∀ r g b : Byte,
    pack r g b = pack (r &&& 0xE0#8) (g &&& 0xE0#8) (b &&& 0xC0#8) ∧
    pack r g b = pack r 0#8 0#8 ||| pack 0#8 g 0#8 ||| pack 0#8 0#8 b ∧
    (pack r 0#8 0#8).toNat ≤ 0xE0 ∧ (pack 0#8 g 0#8).toNat ≤ 0x1C ∧ (pack 0#8 0#8 b).toNat ≤ 0x03

/-- R78 item 6: raising a channel never lowers the packed byte. -/
def Obligations.PackIsMonotone : Prop :=
  ∀ r g b r' g' b' : Byte, r.toNat ≤ r'.toNat → g.toNat ≤ g'.toNat → b.toNat ≤ b'.toNat →
    (pack r g b).toNat ≤ (pack r' g' b').toNat

/-! ### ENCODE -/

/-- R118: the complete effect of `InvalidDimensions`, in `VALIDATE` and in `ENCODE`, whether or not any
pixel has been written. That it results also where `WIDTH` or `HEIGHT` was never written is the model's
choice (log 1, DESIGN CHOICE; R27 and P6 refuse it). -/
def Obligations.InvalidDimensionsEffect : Prop :=
  ∀ s : State, ¬ s.DimsValid →
    exec .validate s = .next { s with statusCode := 1#2 } ∧
    exec .encode s = .next { s with statusCode := 1#2, outLen := 0#16 }

/-- R85: `ENCODE`, command 0x02. With invalid dimensions it completes with `InvalidDimensions`, no byte
of `OUT` written. With valid dimensions and every pixel of the grid held it completes: the header, each
pixel's packed byte at its index, the length and the status are as stated, and everything else, `OUT`
from `2 + 8*W` on included, is as before. That it completes with `InvalidDimensions` also where `WIDTH`
or `HEIGHT` was never written is the model's choice (log 1, DESIGN CHOICE; U1 and P6 refuse it). -/
def Obligations.EncodeProducesThePackedImage : Prop :=
  encode .encode = 0x02#8 ∧ ∀ s : State,
    (¬ s.DimsValid → ∃ t : State, exec .encode s = .next t ∧
      t.status = 0x01#8 ∧ t.outLen = 0#16 ∧
      t = { s with statusCode := t.statusCode, outLen := t.outLen }) ∧
    (s.DimsValid → s.GridLoaded s.width.toNat → ∃ t : State, exec .encode s = .next t ∧
      t.status = 0x00#8 ∧
      t.outLen.toNat = 2 + 8 * s.width.toNat ∧
      t.out.read 0 = some (((s.width >>> 8) &&& 0xFF#16).setWidth 8) ∧
      t.out.read 1 = some ((s.width &&& 0xFF#16).setWidth 8) ∧
      (∀ i j, i < s.width.toNat → j < 8 → ∃ p : Pixel, s.pix.read (8 * i + j) = some p ∧
        t.out.read (2 + 8 * i + j) =
          some (pack (p.extractLsb' 16 8) (p.extractLsb' 8 8) (p.extractLsb' 0 8))) ∧
      (∀ k, 2 + 8 * s.width.toNat ≤ k → t.out.read k = s.out.read k) ∧
      t = { s with statusCode := t.statusCode, outLen := t.outLen, out := t.out })

/-- R90: for every width that passes validation byte 0 is 0 and byte 1 is the width. -/
def Obligations.HeaderIsZeroThenWidth : Prop :=
  ∀ s t : State, s.DimsValid → exec .encode s = .next t →
    t.out.read 0 = some 0#8 ∧ ∃ b : Byte, t.out.read 1 = some b ∧ b.toNat = s.width.toNat ∧
      (t.outLen.toNat - 2) / 8 = b.toNat

/-- R27, R93: with valid dimensions an `ENCODE` over a grid with an unwritten pixel is refused. That the
whole operation is, and that the refusal names the first such pixel of the walk, is the model's choice
(log 14, DESIGN CHOICE). -/
def Obligations.EncodeRefusesAnUnwrittenPixel : Prop :=
  ∀ (s : State) (a : Nat), s.DimsValid → a < 8 * s.width.toNat → s.pix.read a = none →
    (∀ b, b < a → (s.pix.read b).isSome) →
      exec .encode s = .refused (.unwrittenPix a)

/-- The frame of `ENCODE`: when it completes, only `STATUS`, `OUT_LEN` and the bytes it stores change.
It stores to `OUT[0]`, `OUT[1]` and, for each pixel of the walk, `OUT[outIndex i j]`; on failure to none. -/
def Obligations.EncodeStoresOnlyThePackedImage : Prop :=
  ∀ s t : State, exec .encode s = .next t →
    (∀ k, ¬ s.DimsValid → t.out.read k = s.out.read k) ∧
    (∀ k, k ≠ 0 → k ≠ 1 → (∀ i j, i < s.width.toNat → j < 8 → k ≠ outIndex i j) →
      t.out.read k = s.out.read k) ∧
    t = { s with statusCode := t.statusCode, outLen := t.outLen, out := t.out }

/-- R94 item 6: the PackedImage is a function of the width and of `PIX[0 .. 8*W-1]` only. -/
def Obligations.PackedImageDependsOnTheGridOnly : Prop :=
  ∀ s₁ s₂ t₁ : State, s₁.DimsValid → s₁.width = s₂.width → s₁.height = s₂.height →
    (∀ a, a < 8 * s₁.width.toNat → s₁.pix.read a = s₂.pix.read a) →
    exec .encode s₁ = .next t₁ →
      ∃ t₂ : State, exec .encode s₂ = .next t₂ ∧ t₂.status = t₁.status ∧ t₂.outLen = t₁.outLen ∧
        ∀ k, k < t₁.outLen.toNat → t₂.out.read k = t₁.out.read k

/-- R94 item 7: the first `2 + 8*V` bytes of a W-wide image, with byte 1 replaced by V, are the
PackedImage of its first V columns. -/
def Obligations.FirstColumnsComeFirst : Prop :=
  ∀ (s t : State) (v : Dim), s.DimsValid → exec .encode s = .next t →
    1 ≤ v.toNat → v.toNat ≤ s.width.toNat →
      ∃ u : State, exec .encode { s with width := v } = .next u ∧
        u.outLen.toNat = 2 + 8 * v.toNat ∧ u.out.read 1 = some (BitVec.ofNat 8 v.toNat) ∧
        ∀ k, k < 2 + 8 * v.toNat → k ≠ 1 → u.out.read k = t.out.read k

/-- R93, R25: a second `ENCODE` with no host write between changes nothing. The premise on `OUT` is the
canonical form that `StepKeepsTheInvariant` keeps. -/
def Obligations.EncodeTwiceIsEncodeOnce : Prop :=
  ∀ s t : State, s.out.wf 1018 = true → exec .encode s = .next t → exec .encode t = .next t

/-- R94 item 3: an image of one colour gives one pixel byte: 0xE0 for pure red, 0 for black. -/
def Obligations.UniformImagePixelBytes : Prop :=
  ∀ (s : State) (p : Pixel), s.DimsValid →
    (∀ a, a < 8 * s.width.toNat → s.pix.read a = some p) →
      ∃ t : State, exec .encode s = .next t ∧
        (p = 0xFF0000#24 → ∀ k, 2 ≤ k → k < t.outLen.toNat → t.out.read k = some 0xE0#8) ∧
        (p = 0x000000#24 → ∀ k, 2 ≤ k → k < t.outLen.toNat → t.out.read k = some 0x00#8)

/-! ### The whole machine -/

/-- R26: what reset leaves, in the values the spec gives. (That the other registers hold no value is said
through the model's record of R27; the zeros they are given are log 1 and are not stated here.) -/
def Obligations.ResetValues : Prop :=
  State.reset.status = 0x00#8 ∧ State.reset.outLen = 0#16 ∧
    (∀ a, State.reset.pix.read a = none) ∧ (∀ k, State.reset.out.read k = none) ∧
    State.reset.held = ⟨false, false, false, false⟩

/-- R135, R136: reset puts the block, in any state, back into the state after reset; what the host has
still to do and has been told is the host's (log 5). -/
def Obligations.ResetEventResetsTheBlock : Prop :=
  ∀ (s : State) (rest : List Event), s.pending = .reset :: rest →
    step s = .next { State.reset with pending := rest, answers := s.answers }

/-- The state after reset meets the invariant. -/
def Obligations.ResetMeetsTheInvariant : Prop := State.reset.Inv

/-- Every step keeps the invariant: both memories in canonical form, a status that is 0 or 1 (R19), an
`OUT_LEN` that is 0 or the length of a PackedImage whose header and bytes stand in `OUT` (R23, R35). -/
def Obligations.StepKeepsTheInvariant : Prop :=
  ∀ s t : State, s.Inv → step s = .next t → t.Inv

/-- R27, log 1: the zeros chosen for unwritten registers cannot be seen by a host that reads only what
was written. Two states that differ at most in registers that hold no value step alike and stay so. -/
def Obligations.UnwrittenRegistersCannotBeSeen : Prop :=
  ∀ s₁ s₂ t₁ : State, s₁.AgreeOnHeld s₂ →
    (∀ e rest, s₁.pending = e :: rest → Event.readsHeld e s₁.held = true) →
    step s₁ = .next t₁ → ∃ t₂ : State, step s₂ = .next t₂ ∧ t₁.AgreeOnHeld t₂

/-- R19: bits 7:2 of `STATUS` read 0 in every state. That a write inside the block keeps exactly bits 1:0
of any byte (the codes 2 and 3, never produced, among them) is deduced from there (log 8, DEDUCED). -/
def Obligations.StatusHighBitsReadZero : Prop :=
  ∀ (s : State) (v : Byte),
    s.status.extractLsb' 2 6 = 0#6 ∧ (s.writeStatus v).status = v &&& 0x03#8

/-- R12, R13, R14, R33, R80: no operation writes `WIDTH`, `HEIGHT`, `PIXEL_IN` or `PIX`, and none touches
the host. -/
def Obligations.OperationsNeverWriteTheirInputs : Prop :=
  ∀ (i : Instr) (s t : State), exec i s = .next t →
    t.width = s.width ∧ t.height = s.height ∧ t.pixelIn = s.pixelIn ∧ t.pix = s.pix ∧
    t.pending = s.pending ∧ t.answers = s.answers

/-- R116, R87: after `VALIDATE` or `ENCODE` the status is `InvalidDimensions` exactly when the dimensions
are invalid; after `PACKPIXEL` it is what it was. -/
def Obligations.InvalidDimensionsExactlyWhenInvalid : Prop :=
  ∀ s t : State,
    (exec .validate s = .next t → (t.status = 0x01#8 ↔ ¬ s.DimsValid)) ∧
    (exec .encode s = .next t → (t.status = 0x01#8 ↔ ¬ s.DimsValid)) ∧
    (exec .packPixel s = .next t → t.status = s.status)

/-- R12 to R15, R19, R20, R21, R23: which events can change which state. Only `ENCODE` and reset change
`OUT` or `OUT_LEN`; only `PACKPIXEL` and reset change `PACKED`; only `VALIDATE`, `ENCODE` and reset change
`STATUS`; only the host's own write, or reset, changes a register or entry of the host's. -/
def Obligations.StateChangesOnlyThroughItsWriters : Prop :=
  ∀ s t : State, step s = .next t →
    (t.out ≠ s.out ∨ t.outLen ≠ s.outLen →
      ∃ rest, s.pending = commandEvent .encode :: rest ∨ s.pending = .reset :: rest) ∧
    (t.packed ≠ s.packed →
      ∃ rest, s.pending = commandEvent .packPixel :: rest ∨ s.pending = .reset :: rest) ∧
    (t.status ≠ s.status →
      ∃ rest, s.pending = commandEvent .validate :: rest ∨ s.pending = commandEvent .encode :: rest ∨
        s.pending = .reset :: rest) ∧
    (t.width ≠ s.width → ∃ v rest, s.pending = .writeReg 2 v :: rest ∨ s.pending = .reset :: rest) ∧
    (t.height ≠ s.height → ∃ v rest, s.pending = .writeReg 3 v :: rest ∨ s.pending = .reset :: rest) ∧
    (t.pixelIn ≠ s.pixelIn → ∃ v rest, s.pending = .writeReg 4 v :: rest ∨ s.pending = .reset :: rest) ∧
    (t.pix ≠ s.pix → ∃ a v rest, s.pending = .writePix a v :: rest ∨ s.pending = .reset :: rest)

/-! ### The host's accesses -/

/-- R12, R13, R14, R22: a host write of a value that fits a data register is what the register then
holds, and nothing else changes (but the model's own record that it holds a value, log 3). -/
def Obligations.HostWriteLoadsTheRegister : Prop :=
  ∀ (s : State) (v : Nat) (rest : List Event),
    (s.pending = .writeReg 2 v :: rest → v < 65536 →
      step s = .next { s with pending := rest, width := BitVec.ofNat 16 v,
                              held := { s.held with width := true } }) ∧
    (s.pending = .writeReg 3 v :: rest → v < 65536 →
      step s = .next { s with pending := rest, height := BitVec.ofNat 16 v,
                              held := { s.held with height := true } }) ∧
    (s.pending = .writeReg 4 v :: rest → v < 16777216 →
      step s = .next { s with pending := rest, pixelIn := BitVec.ofNat 24 v,
                              held := { s.held with pixelIn := true } })

/-- R22, R66: a host read of a readable register gives back the number it holds and changes nothing else.
That a register nothing has written answers too is the model's choice (log 1, DESIGN CHOICE; R27). -/
def Obligations.HostReadReturnsTheRegister : Prop :=
  ∀ (s : State) (n : Nat) (rest : List Event), s.pending = .readReg n :: rest → 1 ≤ n → n ≤ 6 →
    step s = .next { s with
      pending := rest,
      answers := s.answers ++ [⟨.readReg n,
        if n = 1 then s.status.toNat else if n = 2 then s.width.toNat else if n = 3 then s.height.toNat
        else if n = 4 then s.pixelIn.toNat else if n = 5 then s.packed.toNat else s.outLen.toNat⟩] }

/-- R31, R32, R41: a host write of a `PIX` entry is the one thing later reads of that entry see, and
changes no other entry and nothing else. -/
def Obligations.HostPixelWriteThenRead : Prop :=
  ∀ (s : State) (a : Nat) (v : Pixel) (rest : List Event),
    s.pending = .writePix a v :: rest → a < 1016 →
      ∃ t : State, step s = .next t ∧ t = { s with pending := rest, pix := t.pix } ∧
        ∀ b, t.pix.read b = if b = a then some v else s.pix.read b

/-- R33, R34: a host read of a `PIX` entry or an `OUT` byte that holds a value gives it back, below or
above `OUT_LEN`, and changes nothing else. -/
def Obligations.HostMemoryReadsReturnTheEntry : Prop :=
  ∀ (s : State) (a : Nat) (rest : List Event),
    (∀ v : Pixel, s.pending = .readPix a :: rest → a < 1016 → s.pix.read a = some v →
      step s = .next { s with pending := rest, answers := s.answers ++ [⟨.readPix a, v.toNat⟩] }) ∧
    (∀ v : Byte, s.pending = .readOut a :: rest → a < 1018 → s.out.read a = some v →
      step s = .next { s with pending := rest, answers := s.answers ++ [⟨.readOut a, v.toNat⟩] })

/-- R145, R35: in a state with a legal output a host that keeps to `k < OUT_LEN` always gets its byte. -/
def Obligations.BytesBelowOutLenCanBeRead : Prop :=
  ∀ (s : State) (k : Nat) (rest : List Event),
    s.OutputLegal → s.pending = .readOut k :: rest → k < s.outLen.toNat →
      ∃ v : Byte, s.out.read k = some v ∧
        step s = .next { s with pending := rest, answers := s.answers ++ [⟨.readOut k, v.toNat⟩] }

/-- R27: a host read of a memory entry that nothing has written is refused. -/
def Obligations.UnwrittenEntryReadIsRefused : Prop :=
  ∀ (s : State) (a : Nat) (rest : List Event),
    (s.pending = .readPix a :: rest → a < 1016 → s.pix.read a = none →
      step s = .refused (.unwrittenPix a)) ∧
    (s.pending = .readOut a :: rest → a < 1018 → s.out.read a = none →
      step s = .refused (.unwrittenOut a))

/-- R22, R33, R34, R62: an access that is not well formed never completes, in any state. That a number too
wide for its register is not well formed is R141 for `WIDTH` and `HEIGHT`, and the model's own for `CMD`
and `PIXEL_IN` (log 7, DEDUCED). -/
def Obligations.IllFormedAccessNeverCompletes : Prop :=
  ∀ (s t : State) (e : Event) (rest : List Event), s.pending = e :: rest → e.wf = false →
    step s ≠ .next t

/-- R40, R128, R147: every well-formed access completes in one step, in any state, if the memory entries
it reads hold values. That this takes in commands and register reads on registers nothing has written,
to which R27 and U1 give no meaning, is the model's choice (log 1, DESIGN CHOICE). -/
def Obligations.WellFormedAccessCompletes : Prop :=
  ∀ (s : State) (e : Event) (rest : List Event), s.pending = e :: rest → e.wf = true →
    (∀ a, e = .readPix a → (s.pix.read a).isSome) →
    (∀ k, e = .readOut k → (s.out.read k).isSome) →
    (e = commandEvent .encode → s.DimsValid → s.GridLoaded s.width.toNat) →
      ∃ t : State, step s = .next t ∧ (e ≠ .reset → t.pending = rest)

/-- R22, R33, R34, R124, R141: each access to what does not exist or is not the host's to touch, and each
write of a number too wide for its register, is refused. That each ground has a name of its own is log 6
(DESIGN CHOICE); that a number too wide is refused is log 7 (DEDUCED); which ground is named where two
hold (a write to `OUT` at 1018 or above, a number too wide for `STATUS`, `PACKED` or `OUT_LEN`, a number
of 256 or more for `CMD`) is log 15 (DESIGN CHOICE). -/
def Obligations.IllegalAccessesStopByName : Prop :=
  ∀ (s : State) (n v : Nat) (b : Byte) (p : Pixel) (rest : List Event),
    (s.pending = .writeReg n v :: rest → 7 ≤ n → step s = .refused (.noSuchRegister n)) ∧
    (s.pending = .readReg n :: rest → 7 ≤ n → step s = .refused (.noSuchRegister n)) ∧
    (s.pending = .writePix n p :: rest → 1016 ≤ n → step s = .refused (.noSuchPixEntry n)) ∧
    (s.pending = .readPix n :: rest → 1016 ≤ n → step s = .refused (.noSuchPixEntry n)) ∧
    (s.pending = .readOut n :: rest → 1018 ≤ n → step s = .refused (.noSuchOutEntry n)) ∧
    (s.pending = .writeReg n v :: rest → n = 1 ∨ n = 5 ∨ n = 6 → step s = .refused (.writeReadOnly n)) ∧
    (s.pending = .readReg 0 :: rest → step s = .refused .readOfCmd) ∧
    (s.pending = .writeOut n b :: rest → n < 1018 → step s = .refused (.hostWriteOut n)) ∧
    (s.pending = .writeOut n b :: rest → 1018 ≤ n → step s = .refused (.noSuchOutEntry n)) ∧
    (s.pending = .writeReg 0 v :: rest → 256 ≤ v → step s = .refused (.valueTooWide 0 v)) ∧
    (s.pending = .writeReg n v :: rest → n = 2 ∨ n = 3 → 65536 ≤ v → step s = .refused (.valueTooWide n v)) ∧
    (s.pending = .writeReg 4 v :: rest → 16777216 ≤ v → step s = .refused (.valueTooWide 4 v))

/-- R133, R136: with no access coming the block is idle and holds its state. That this is a step which
answers the same state is the model's form (log 4, DESIGN CHOICE). -/
def Obligations.IdleBlockHoldsItsState : Prop :=
  ∀ s : State, s.pending = [] → step s = .next s

/-- Equal memories are equal data: two memories in canonical form that read alike are the same list. -/
def Obligations.CanonicalMemoriesAreEqualData : Prop :=
  ∀ (w size : Nat) (m₁ m₂ : Memory w), m₁.wf size = true → m₂.wf size = true →
    (∀ a, a < size → m₁.read a = m₂.read a) → m₁ = m₂

/-! ### RENDER and the host's single-shot tool -/

/-- R101, R103 to R106: on its domain `RENDER` gives the 30 characters of the opening, the two header bytes
alone on the first line, the pixel values in lines of `WRAP` values (or one line), and the close.
What the numerals `dec` are, R102, is `NumeralsAreShortestDecimal`. -/
def Obligations.RenderedTextLines : Prop :=
  ∀ (wrap : Option Nat) (hi lo : Byte) (pixels : List Byte),
    wrapOk wrap = true → isPackedImage (hi :: lo :: pixels) = true →
      (openingHead ++ openingTail).length = 30 ∧
      render false wrap (hi :: lo :: pixels) = .ok
        (openingHead ++ openingTail ++ dec hi.toNat ++ [','] ++ dec lo.toNat ++ [',', lineBreak] ++
          pixelPartText wrap pixels ++ [lineBreak, rightBrace, ';'])

/-- R109: parsing a rendered PackedImage gives it back, byte for byte and in length, for every wrap
setting, with or without a declared size. -/
def Obligations.RenderThenParseRoundTrip : Prop :=
  ∀ (declareSize : Bool) (wrap : Option Nat) (p : List Byte),
    wrapOk wrap = true → isPackedImage p = true →
      ∃ t : Text, render declareSize wrap p = .ok t ∧ parse t = some (p.map BitVec.toNat)

/-- R114: the number of commas and of line breaks. -/
def Obligations.RenderSeparatorCounts : Prop :=
  ∀ (wrap : Option Nat) (p : List Byte) (t : Text), render false wrap p = .ok t →
    t.count ',' = p.length - 1 ∧
    t.count lineBreak = 2 + (match wrap with | none => 0 | some w => (p.length - 3) / w)

/-- R111: outside its domain `RENDER` is refused. -/
def Obligations.RenderRefusedOutsideItsDomain : Prop :=
  ∀ (declareSize : Bool) (wrap : Option Nat) (p : List Byte) (t : Text),
    wrap = some 0 ∨ p.length < 3 ∨ isPackedImage p = false → render declareSize wrap p ≠ .ok t

/-- R94, R109, R134, R149: on a decoded image of valid dimensions the tool ends with exit code 0 and a
literal that parses to the width as two bytes and the packed pixels in walk order. -/
def Obligations.ToolDeliversThePackedImage : Prop :=
  ∀ (wrap : Option Nat) (img : Image), wrapOk wrap = true → img.wf = true → img.dimsValid = true →
    ∃ t : Text, runTool wrap (some img) = .ok (.literal t) ∧
      ToolResult.exitCode (.literal t) = 0 ∧
      parse t = some (img.packedImage.map BitVec.toNat)

/-- R112, R119, R134: on an image of invalid dimensions, however large, the tool writes no literal,
reports the error and exits with code 1. -/
def Obligations.ToolReportsInvalidDimensions : Prop :=
  ∀ (wrap : Option Nat) (img : Image), img.dimsValid = false →
    runTool wrap (some img) = .ok .invalidDimensions ∧
    ToolResult.exitCode .invalidDimensions = 1 ∧
    ToolResult.message .invalidDimensions =
      some "image size must be between 1 and 127 pixels wide inclusive and 8 pixels tall"

/-- R120, R134: without an image the tool ends in `DecodeFailure`, with some exit code that is not zero;
which one is a free value (log 12). -/
def Obligations.ToolExitsNonZeroOnDecodeFailure : Prop :=
  ∀ wrap : Option Nat, runTool wrap none = .ok .decodeFailure ∧
    ToolResult.exitCode .decodeFailure ≠ 0

/-- R102: the numeral of a number consists of the digits 0 to 9, begins with 0 only when it is the numeral
of 0, and reads as that number, most significant digit first; for a byte it has one to three characters.
(Stated for every number; R102 speaks of bytes.) -/
def Obligations.NumeralsAreShortestDecimal : Prop :=
  dec 0 = ['0'] ∧ ∀ v : Nat,
    (∀ c ∈ dec v, '0'.toNat ≤ c.toNat ∧ c.toNat ≤ '9'.toNat) ∧
    (v ≠ 0 → ∃ c rest, dec v = c :: rest ∧ c ≠ '0') ∧
    (dec v).foldl (fun n c => 10 * n + (c.toNat - '0'.toNat)) 0 = v ∧
    readDecimal (dec v) = some v ∧
    (v < 256 → 1 ≤ (dec v).length ∧ (dec v).length ≤ 3)
end

