-- ==== Sys2Proof/Laws/Decode.lean ====
section
/-! SUPPORT. The decoder as three comparisons (R64). -/

namespace Sys2Proof

/-- The command bytes, written out (R60). -/
@[simp] theorem encode_validate : encode .validate = 0x00#8 := rfl
@[simp] theorem encode_packPixel : encode .packPixel = 0x01#8 := rfl
@[simp] theorem encode_encode : encode .encode = 0x02#8 := rfl

/-- "A decoder looks at the whole byte and compares it with three values" (R64). -/
theorem decode_eq (b : Byte) :
    decode b = if b = 0#8 then .ok .validate else if b = 1#8 then .ok .packPixel
      else if b = 2#8 then .ok .encode else .error (.reserved b) := by
  have hm : ∀ c : Byte, (b &&& 0xFF#8 == c) = decide (b = c) := by
    intro c
    have : b &&& 0xFF#8 = b := BitVec.and_allOnes
    rw [this]
    rfl
  simp only [decode, opcodeTable, List.find?, OpcodeRow.covers, hm]
  by_cases h0 : b = 0#8
  · subst h0; rfl
  · by_cases h1 : b = 1#8
    · subst h1; rfl
    · by_cases h2 : b = 2#8
      · subst h2; rfl
      · rw [if_neg h0, if_neg h1, if_neg h2, decide_eq_false h0, decide_eq_false h1, decide_eq_false h2]

end Sys2Proof
end

