-- ==== Sys2Proof/Laws/State.lean ====
section
/-! SUPPORT. One lemma per field per named update of State, all true by rfl. -/

namespace Sys2Proof.Machine.State

@[simp] theorem writeStatus_statusCode (s : State) (v : Byte) : (s.writeStatus v).statusCode = v.setWidth 2 := rfl
@[simp] theorem writeStatus_width (s : State) (v : Byte) : (s.writeStatus v).width = s.width := rfl
@[simp] theorem writeStatus_height (s : State) (v : Byte) : (s.writeStatus v).height = s.height := rfl
@[simp] theorem writeStatus_pixelIn (s : State) (v : Byte) : (s.writeStatus v).pixelIn = s.pixelIn := rfl
@[simp] theorem writeStatus_packed (s : State) (v : Byte) : (s.writeStatus v).packed = s.packed := rfl
@[simp] theorem writeStatus_outLen (s : State) (v : Byte) : (s.writeStatus v).outLen = s.outLen := rfl
@[simp] theorem writeStatus_pix (s : State) (v : Byte) : (s.writeStatus v).pix = s.pix := rfl
@[simp] theorem writeStatus_out (s : State) (v : Byte) : (s.writeStatus v).out = s.out := rfl
@[simp] theorem writeStatus_held (s : State) (v : Byte) : (s.writeStatus v).held = s.held := rfl
@[simp] theorem writeStatus_pending (s : State) (v : Byte) : (s.writeStatus v).pending = s.pending := rfl
@[simp] theorem writeStatus_answers (s : State) (v : Byte) : (s.writeStatus v).answers = s.answers := rfl

@[simp] theorem storeOut_statusCode (s : State) (k : Nat) (v : Byte) : (s.storeOut k v).statusCode = s.statusCode := rfl
@[simp] theorem storeOut_width (s : State) (k : Nat) (v : Byte) : (s.storeOut k v).width = s.width := rfl
@[simp] theorem storeOut_height (s : State) (k : Nat) (v : Byte) : (s.storeOut k v).height = s.height := rfl
@[simp] theorem storeOut_pixelIn (s : State) (k : Nat) (v : Byte) : (s.storeOut k v).pixelIn = s.pixelIn := rfl
@[simp] theorem storeOut_packed (s : State) (k : Nat) (v : Byte) : (s.storeOut k v).packed = s.packed := rfl
@[simp] theorem storeOut_outLen (s : State) (k : Nat) (v : Byte) : (s.storeOut k v).outLen = s.outLen := rfl
@[simp] theorem storeOut_pix (s : State) (k : Nat) (v : Byte) : (s.storeOut k v).pix = s.pix := rfl
@[simp] theorem storeOut_out (s : State) (k : Nat) (v : Byte) : (s.storeOut k v).out = s.out.write k v := rfl
@[simp] theorem storeOut_held (s : State) (k : Nat) (v : Byte) : (s.storeOut k v).held = s.held := rfl
@[simp] theorem storeOut_pending (s : State) (k : Nat) (v : Byte) : (s.storeOut k v).pending = s.pending := rfl
@[simp] theorem storeOut_answers (s : State) (k : Nat) (v : Byte) : (s.storeOut k v).answers = s.answers := rfl

@[simp] theorem setOutLen_statusCode (s : State) (n : Nat) : (s.setOutLen n).statusCode = s.statusCode := rfl
@[simp] theorem setOutLen_width (s : State) (n : Nat) : (s.setOutLen n).width = s.width := rfl
@[simp] theorem setOutLen_height (s : State) (n : Nat) : (s.setOutLen n).height = s.height := rfl
@[simp] theorem setOutLen_pixelIn (s : State) (n : Nat) : (s.setOutLen n).pixelIn = s.pixelIn := rfl
@[simp] theorem setOutLen_packed (s : State) (n : Nat) : (s.setOutLen n).packed = s.packed := rfl
@[simp] theorem setOutLen_outLen (s : State) (n : Nat) : (s.setOutLen n).outLen = BitVec.ofNat 16 n := rfl
@[simp] theorem setOutLen_pix (s : State) (n : Nat) : (s.setOutLen n).pix = s.pix := rfl
@[simp] theorem setOutLen_out (s : State) (n : Nat) : (s.setOutLen n).out = s.out := rfl
@[simp] theorem setOutLen_held (s : State) (n : Nat) : (s.setOutLen n).held = s.held := rfl
@[simp] theorem setOutLen_pending (s : State) (n : Nat) : (s.setOutLen n).pending = s.pending := rfl
@[simp] theorem setOutLen_answers (s : State) (n : Nat) : (s.setOutLen n).answers = s.answers := rfl

@[simp] theorem setPacked_statusCode (s : State) (v : Byte) : (s.setPacked v).statusCode = s.statusCode := rfl
@[simp] theorem setPacked_width (s : State) (v : Byte) : (s.setPacked v).width = s.width := rfl
@[simp] theorem setPacked_height (s : State) (v : Byte) : (s.setPacked v).height = s.height := rfl
@[simp] theorem setPacked_pixelIn (s : State) (v : Byte) : (s.setPacked v).pixelIn = s.pixelIn := rfl
@[simp] theorem setPacked_packed (s : State) (v : Byte) : (s.setPacked v).packed = v := rfl
@[simp] theorem setPacked_outLen (s : State) (v : Byte) : (s.setPacked v).outLen = s.outLen := rfl
@[simp] theorem setPacked_pix (s : State) (v : Byte) : (s.setPacked v).pix = s.pix := rfl
@[simp] theorem setPacked_out (s : State) (v : Byte) : (s.setPacked v).out = s.out := rfl
@[simp] theorem setPacked_held (s : State) (v : Byte) : (s.setPacked v).held = { s.held with packed := true } := rfl
@[simp] theorem setPacked_pending (s : State) (v : Byte) : (s.setPacked v).pending = s.pending := rfl
@[simp] theorem setPacked_answers (s : State) (v : Byte) : (s.setPacked v).answers = s.answers := rfl

@[simp] theorem setWidth_statusCode (s : State) (v : Dim) : (s.setWidth v).statusCode = s.statusCode := rfl
@[simp] theorem setWidth_width (s : State) (v : Dim) : (s.setWidth v).width = v := rfl
@[simp] theorem setWidth_height (s : State) (v : Dim) : (s.setWidth v).height = s.height := rfl
@[simp] theorem setWidth_pixelIn (s : State) (v : Dim) : (s.setWidth v).pixelIn = s.pixelIn := rfl
@[simp] theorem setWidth_packed (s : State) (v : Dim) : (s.setWidth v).packed = s.packed := rfl
@[simp] theorem setWidth_outLen (s : State) (v : Dim) : (s.setWidth v).outLen = s.outLen := rfl
@[simp] theorem setWidth_pix (s : State) (v : Dim) : (s.setWidth v).pix = s.pix := rfl
@[simp] theorem setWidth_out (s : State) (v : Dim) : (s.setWidth v).out = s.out := rfl
@[simp] theorem setWidth_held (s : State) (v : Dim) : (s.setWidth v).held = { s.held with width := true } := rfl
@[simp] theorem setWidth_pending (s : State) (v : Dim) : (s.setWidth v).pending = s.pending := rfl
@[simp] theorem setWidth_answers (s : State) (v : Dim) : (s.setWidth v).answers = s.answers := rfl

@[simp] theorem setHeight_statusCode (s : State) (v : Dim) : (s.setHeight v).statusCode = s.statusCode := rfl
@[simp] theorem setHeight_width (s : State) (v : Dim) : (s.setHeight v).width = s.width := rfl
@[simp] theorem setHeight_height (s : State) (v : Dim) : (s.setHeight v).height = v := rfl
@[simp] theorem setHeight_pixelIn (s : State) (v : Dim) : (s.setHeight v).pixelIn = s.pixelIn := rfl
@[simp] theorem setHeight_packed (s : State) (v : Dim) : (s.setHeight v).packed = s.packed := rfl
@[simp] theorem setHeight_outLen (s : State) (v : Dim) : (s.setHeight v).outLen = s.outLen := rfl
@[simp] theorem setHeight_pix (s : State) (v : Dim) : (s.setHeight v).pix = s.pix := rfl
@[simp] theorem setHeight_out (s : State) (v : Dim) : (s.setHeight v).out = s.out := rfl
@[simp] theorem setHeight_held (s : State) (v : Dim) : (s.setHeight v).held = { s.held with height := true } := rfl
@[simp] theorem setHeight_pending (s : State) (v : Dim) : (s.setHeight v).pending = s.pending := rfl
@[simp] theorem setHeight_answers (s : State) (v : Dim) : (s.setHeight v).answers = s.answers := rfl

@[simp] theorem setPixelIn_statusCode (s : State) (v : Pixel) : (s.setPixelIn v).statusCode = s.statusCode := rfl
@[simp] theorem setPixelIn_width (s : State) (v : Pixel) : (s.setPixelIn v).width = s.width := rfl
@[simp] theorem setPixelIn_height (s : State) (v : Pixel) : (s.setPixelIn v).height = s.height := rfl
@[simp] theorem setPixelIn_pixelIn (s : State) (v : Pixel) : (s.setPixelIn v).pixelIn = v := rfl
@[simp] theorem setPixelIn_packed (s : State) (v : Pixel) : (s.setPixelIn v).packed = s.packed := rfl
@[simp] theorem setPixelIn_outLen (s : State) (v : Pixel) : (s.setPixelIn v).outLen = s.outLen := rfl
@[simp] theorem setPixelIn_pix (s : State) (v : Pixel) : (s.setPixelIn v).pix = s.pix := rfl
@[simp] theorem setPixelIn_out (s : State) (v : Pixel) : (s.setPixelIn v).out = s.out := rfl
@[simp] theorem setPixelIn_held (s : State) (v : Pixel) : (s.setPixelIn v).held = { s.held with pixelIn := true } := rfl
@[simp] theorem setPixelIn_pending (s : State) (v : Pixel) : (s.setPixelIn v).pending = s.pending := rfl
@[simp] theorem setPixelIn_answers (s : State) (v : Pixel) : (s.setPixelIn v).answers = s.answers := rfl

@[simp] theorem storePix_statusCode (s : State) (a : Nat) (v : Pixel) : (s.storePix a v).statusCode = s.statusCode := rfl
@[simp] theorem storePix_width (s : State) (a : Nat) (v : Pixel) : (s.storePix a v).width = s.width := rfl
@[simp] theorem storePix_height (s : State) (a : Nat) (v : Pixel) : (s.storePix a v).height = s.height := rfl
@[simp] theorem storePix_pixelIn (s : State) (a : Nat) (v : Pixel) : (s.storePix a v).pixelIn = s.pixelIn := rfl
@[simp] theorem storePix_packed (s : State) (a : Nat) (v : Pixel) : (s.storePix a v).packed = s.packed := rfl
@[simp] theorem storePix_outLen (s : State) (a : Nat) (v : Pixel) : (s.storePix a v).outLen = s.outLen := rfl
@[simp] theorem storePix_pix (s : State) (a : Nat) (v : Pixel) : (s.storePix a v).pix = s.pix.write a v := rfl
@[simp] theorem storePix_out (s : State) (a : Nat) (v : Pixel) : (s.storePix a v).out = s.out := rfl
@[simp] theorem storePix_held (s : State) (a : Nat) (v : Pixel) : (s.storePix a v).held = s.held := rfl
@[simp] theorem storePix_pending (s : State) (a : Nat) (v : Pixel) : (s.storePix a v).pending = s.pending := rfl
@[simp] theorem storePix_answers (s : State) (a : Nat) (v : Pixel) : (s.storePix a v).answers = s.answers := rfl

@[simp] theorem answer_statusCode (s : State) (e : Event) (v : Nat) : (s.answer e v).statusCode = s.statusCode := rfl
@[simp] theorem answer_width (s : State) (e : Event) (v : Nat) : (s.answer e v).width = s.width := rfl
@[simp] theorem answer_height (s : State) (e : Event) (v : Nat) : (s.answer e v).height = s.height := rfl
@[simp] theorem answer_pixelIn (s : State) (e : Event) (v : Nat) : (s.answer e v).pixelIn = s.pixelIn := rfl
@[simp] theorem answer_packed (s : State) (e : Event) (v : Nat) : (s.answer e v).packed = s.packed := rfl
@[simp] theorem answer_outLen (s : State) (e : Event) (v : Nat) : (s.answer e v).outLen = s.outLen := rfl
@[simp] theorem answer_pix (s : State) (e : Event) (v : Nat) : (s.answer e v).pix = s.pix := rfl
@[simp] theorem answer_out (s : State) (e : Event) (v : Nat) : (s.answer e v).out = s.out := rfl
@[simp] theorem answer_held (s : State) (e : Event) (v : Nat) : (s.answer e v).held = s.held := rfl
@[simp] theorem answer_pending (s : State) (e : Event) (v : Nat) : (s.answer e v).pending = s.pending := rfl
@[simp] theorem answer_answers (s : State) (e : Event) (v : Nat) : (s.answer e v).answers = s.answers ++ [⟨e, v⟩] := rfl

/-- A status that is written and read back keeps bits 1:0 only. -/
@[simp] theorem writeStatus_status (s : State) (v : Byte) : (s.writeStatus v).status = 0#6 ++ v.setWidth 2 := rfl

end Sys2Proof.Machine.State
end

