-- ==== Sys2Proof/Laws/Flags.lean ====
section
/-! SUPPORT. The dimension check and the status byte in numbers. -/

namespace Sys2Proof.Machine

/-- The check of R71, word by word, in numbers. -/
theorem dimsOk_eq_true {w h : Dim} :
    dimsOk w h = true ↔ 1 ≤ w.toNat ∧ w.toNat ≤ 127 ∧ h.toNat = 8 := by
  have hw : w ≠ 0#16 ↔ 1 ≤ w.toNat := by
    rw [Ne, BitVec.toNat_eq]
    simp
    omega
  have hh : h = 8#16 ↔ h.toNat = 8 := by
    rw [BitVec.toNat_eq]
    simp
  simp only [dimsOk, Bool.and_eq_true, bne_iff_ne, decide_eq_true_eq, beq_iff_eq, hw, hh,
    BitVec.le_def]
  simp [and_assoc]

theorem dimsOk_eq_false {w h : Dim} :
    dimsOk w h = false ↔ ¬ (1 ≤ w.toNat ∧ w.toNat ≤ 127 ∧ h.toNat = 8) := by
  rw [← dimsOk_eq_true, Bool.not_eq_true]

/-- The hard-wired bits read 0 in every state (R19). -/
theorem status_high_bits (s : State) : s.status.extractLsb' 2 6 = 0#6 := by
  have h : ∀ c : BitVec 2, ((0#6 ++ c : BitVec 8)).extractLsb' 2 6 = 0#6 := by decide
  exact h s.statusCode

/-- The status byte and the code field determine each other. -/
theorem status_eq_iff (s : State) (c : BitVec 2) : s.status = 0#6 ++ c ↔ s.statusCode = c := by
  have h : ∀ a b : BitVec 2, (0#6 ++ a : BitVec 8) = 0#6 ++ b ↔ a = b := by decide
  exact h s.statusCode c

end Sys2Proof.Machine
end

