-- ==== Sys2Proof/Laws/Memory.lean ====
section
/-! SUPPORT. The laws of the two memories: read after write, and the canonical form. -/

namespace Sys2Proof.Machine.Memory

variable {w : Nat}

@[simp] theorem read_nil (b : Nat) : Memory.read ([] : Memory w) b = none := rfl

/-- A read after a write: the written entry where it was written, the old one elsewhere. -/
@[simp] theorem read_write (m : Memory w) (a b : Nat) (v : BitVec w) :
    (m.write a v).read b = if b = a then some v else m.read b := by
  induction m with
  | nil => simp [Memory.write, Memory.read]
  | cons x rest ih =>
    obtain ⟨c, u⟩ := x
    by_cases h1 : a < c
    · simp [Memory.write, Memory.read, h1]
    · by_cases h2 : a = c
      · subst h2
        by_cases h3 : b = a <;> simp [Memory.write, Memory.read, h3]
      · by_cases h3 : b = c
        · have h4 : b ≠ a := fun h => h2 (h.symm.trans h3)
          subst h3
          simp [Memory.write, Memory.read, h1, h2, h4]
        · simp [Memory.write, Memory.read, h1, h2, h3, ih]

/-- A write at or above the lower bound keeps the canonical form. -/
theorem wfFrom_write {size lo a : Nat} {m : Memory w} (v : BitVec w) (hm : m.wfFrom size lo = true)
    (hlo : lo ≤ a) (ha : a < size) : (m.write a v).wfFrom size lo = true := by
  induction m generalizing lo with
  | nil => simp [Memory.write, Memory.wfFrom, hlo, ha]
  | cons x rest ih =>
    obtain ⟨c, u⟩ := x
    simp only [Memory.wfFrom, Bool.and_eq_true, decide_eq_true_eq] at hm
    obtain ⟨⟨h1, h2⟩, h3⟩ := hm
    by_cases hac : a < c
    · simp [Memory.write, Memory.wfFrom, hac, hlo, ha, h2, h3, Nat.succ_le_of_lt hac]
    · by_cases hac' : a = c
      · subst hac'
        simp [Memory.write, Memory.wfFrom, h1, h2, h3]
      · have : c + 1 ≤ a := by omega
        simp [Memory.write, Memory.wfFrom, hac, hac', h1, h2, ih h3 this]

/-- Every write to an address the memory has keeps the canonical form. -/
theorem wf_write {size a : Nat} {m : Memory w} (v : BitVec w) (hm : m.wf size = true) (ha : a < size) :
    (m.write a v).wf size = true :=
  wfFrom_write v hm (Nat.zero_le _) ha

/-- In canonical form nothing is listed below the lower bound. -/
theorem read_below {size lo b : Nat} {m : Memory w} (hm : m.wfFrom size lo = true) (hb : b < lo) :
    m.read b = none := by
  induction m generalizing lo with
  | nil => rfl
  | cons x rest ih =>
    obtain ⟨c, u⟩ := x
    simp only [Memory.wfFrom, Bool.and_eq_true, decide_eq_true_eq] at hm
    have hne : b ≠ c := by omega
    simp [Memory.read, hne, ih hm.2 (by omega)]

/-- Writing what an entry of a memory in canonical form already holds changes nothing. -/
theorem wfFrom_write_same {size lo a : Nat} {m : Memory w} {v : BitVec w}
    (hm : m.wfFrom size lo = true) (hv : m.read a = some v) : m.write a v = m := by
  induction m generalizing lo with
  | nil => simp at hv
  | cons x rest ih =>
    obtain ⟨c, u⟩ := x
    simp only [Memory.wfFrom, Bool.and_eq_true, decide_eq_true_eq] at hm
    by_cases hac : a = c
    · subst hac
      simp only [Memory.read, if_true, Option.some.injEq] at hv
      simp [Memory.write, hv]
    · have hr : Memory.read rest a = some v := by simpa [Memory.read, hac] using hv
      have hlt : ¬ a < c := by
        intro h
        have := read_below hm.2 (show a < c + 1 by omega)
        simp [this] at hr
      simp [Memory.write, hac, hlt, ih hm.2 hr]

theorem write_same {size a : Nat} {m : Memory w} {v : BitVec w} (hm : m.wf size = true)
    (hv : m.read a = some v) : m.write a v = m :=
  wfFrom_write_same hm hv

end Sys2Proof.Machine.Memory
end

