-- ==== Sys2Proof/Laws/Operands.lean ====
section
/-! SUPPORT. The walk order of `ENCODE` as a table over the pixel addresses, and the header of a valid width. -/

namespace Sys2Proof.Machine

theorem walkOrder_succ (w : Nat) :
    walkOrder (w + 1) = walkOrder w ++ (List.range 8).map fun j => (w, j) := by
  simp [walkOrder, List.range_succ, List.flatMap_append]

@[simp] theorem walkOrder_length (w : Nat) : (walkOrder w).length = 8 * w := by
  induction w with
  | zero => rfl
  | succ w ih => rw [walkOrder_succ, List.length_append, ih]; simp; omega

/-- The pixel visited at position `n` is the one at address `n` of `PIX` (R89). -/
theorem walkOrder_get (w n : Nat) (h : n < 8 * w) : (walkOrder w)[n]? = some (n / 8, n % 8) := by
  induction w with
  | zero => omega
  | succ w ih =>
    rw [walkOrder_succ]
    by_cases hn : n < 8 * w
    · rw [List.getElem?_append_left (by simpa using hn)]
      exact ih hn
    · rw [List.getElem?_append_right (by simpa using hn), walkOrder_length]
      have h8 : n - 8 * w < 8 := by omega
      have hd : n / 8 = w := by omega
      have hm : n % 8 = n - 8 * w := by omega
      rw [List.getElem?_map, List.getElem?_range h8, hd, hm]
      rfl

/-- The walk visits the addresses 0 to `8*w - 1` of `PIX`, one after another (R31, R89). -/
theorem walkOrder_addresses (w : Nat) :
    (walkOrder w).map (fun x => pixAddr x.1 x.2) = List.range (8 * w) := by
  apply List.ext_getElem?
  intro n
  rw [List.getElem?_map]
  by_cases h : n < 8 * w
  · rw [walkOrder_get w n h, List.getElem?_range h]
    simp only [Option.map_some, pixAddr, Option.some.injEq]
    omega
  · rw [List.getElem?_eq_none (by simpa using h), List.getElem?_eq_none (by simpa using h)]
    rfl

/-- The high header byte of a valid width is 0 (R90). -/
theorem headerHigh_valid {w : Dim} (h : w.toNat ≤ 127) : headerHigh w = 0#8 := by
  apply BitVec.eq_of_toNat_eq
  have : w.toNat >>> 8 = 0 := by rw [Nat.shiftRight_eq_div_pow]; omega
  simp [headerHigh, this]

/-- The low header byte is the width modulo 256; of a valid width, the width itself (R90). -/
theorem headerLow_eq (w : Dim) : headerLow w = BitVec.ofNat 8 w.toNat := by
  apply BitVec.eq_of_toNat_eq
  have : w.toNat % 256 &&& 255 = w.toNat % 256 % 256 := Nat.and_two_pow_sub_one_eq_mod _ 8
  simp [headerLow, this]

end Sys2Proof.Machine
end

