-- ==== Sys2Proof/Laws/Encode.lean ====
section
/-! SUPPORT. What the walk of `ENCODE`, and `ENCODE` itself, can do: said once, for later proofs to cite. -/

namespace Sys2Proof.Machine

/-- Where the walk completes: its bytes appended from `k` on, everything else as it was. -/
theorem encodeWalk_complete {l : List (Nat × Nat)} {k : Nat} {s : State}
    (h : ∀ x ∈ l, (s.pix.read (pixAddr x.1 x.2)).isSome) :
    ∃ m : Memory 8, encodeWalk l k s = .next { s with out := m } ∧
      (∀ n x, l[n]? = some x → ∃ p, s.pix.read (pixAddr x.1 x.2) = some p ∧ m.read (k + n) = some (packOf p)) ∧
      (∀ b, b < k ∨ k + l.length ≤ b → m.read b = s.out.read b) ∧
      (∀ size, s.out.wf size = true → k + l.length ≤ size → m.wf size = true) := by
  induction l generalizing k s with
  | nil => exact ⟨s.out, rfl, by simp, fun _ _ => rfl, fun _ hs _ => hs⟩
  | cons x rest ih =>
    obtain ⟨i, j⟩ := x
    obtain ⟨p, hp⟩ := Option.isSome_iff_exists.mp (h (i, j) (by simp))
    simp only at hp
    obtain ⟨m, hm, hin, hout, hwf⟩ := ih (k := k + 1) (s := s.storeOut k (packOf p))
      (fun y hy => by simpa using h y (by simp [hy]))
    refine ⟨m, by simp only [encodeWalk, hp, hm]; rfl, ?_, ?_, ?_⟩
    · intro n y hy
      cases n with
      | zero =>
        simp only [List.getElem?_cons_zero, Option.some.injEq] at hy
        subst hy
        exact ⟨p, hp, by rw [hout _ (by omega)]; simp⟩
      | succ n =>
        obtain ⟨q, hq, hr⟩ := hin n y (by simpa using hy)
        exact ⟨q, by simpa using hq, by rw [← hr]; congr 1; omega⟩
    · intro b hb
      have hb' : b < k ∨ k + 1 + rest.length ≤ b := by
        simp only [List.length_cons] at hb
        omega
      have hne : b ≠ k := by
        simp only [List.length_cons] at hb
        omega
      rw [hout b (by omega)]
      simp [hne]
    · intro size hs hk
      simp only [List.length_cons] at hk
      exact hwf size (Memory.wf_write _ hs (by omega)) (by omega)

/-- Where the walk meets a pixel that holds no value, it refuses and names the first one. -/
theorem encodeWalk_refused {l : List (Nat × Nat)} {k n : Nat} {s : State} {x : Nat × Nat}
    (hx : l[n]? = some x) (hnone : s.pix.read (pixAddr x.1 x.2) = none)
    (hbefore : ∀ m y, m < n → l[m]? = some y → (s.pix.read (pixAddr y.1 y.2)).isSome) :
    encodeWalk l k s = .refused (.unwrittenPix (pixAddr x.1 x.2)) := by
  induction l generalizing k n s with
  | nil => simp at hx
  | cons y rest ih =>
    obtain ⟨i, j⟩ := y
    cases n with
    | zero =>
      simp only [List.getElem?_cons_zero, Option.some.injEq] at hx
      subst hx
      simp only at hnone
      simp only [encodeWalk, hnone]
    | succ n =>
      obtain ⟨p, hp⟩ := Option.isSome_iff_exists.mp (hbefore 0 (i, j) (by omega) rfl)
      simp only at hp
      simp only [encodeWalk, hp]
      exact ih (n := n) (by simpa using hx) (by simpa using hnone)
        (fun m y hm hy => by simpa using hbefore (m + 1) y (by omega) (by simpa using hy))

/-- What the walk can do: it completes, or refuses a pixel that holds no value. -/
theorem encodeWalk_cases (l : List (Nat × Nat)) (k : Nat) (s : State) :
    ((∀ x ∈ l, (s.pix.read (pixAddr x.1 x.2)).isSome) ∧
      ∃ m : Memory 8, encodeWalk l k s = .next { s with out := m }) ∨
    ∃ x ∈ l, s.pix.read (pixAddr x.1 x.2) = none ∧
      encodeWalk l k s = .refused (.unwrittenPix (pixAddr x.1 x.2)) := by
  induction l generalizing k s with
  | nil => exact .inl ⟨by simp, s.out, rfl⟩
  | cons y rest ih =>
    obtain ⟨i, j⟩ := y
    cases hp : s.pix.read (pixAddr i j) with
    | none => exact .inr ⟨(i, j), by simp, hp, by simp only [encodeWalk, hp]⟩
    | some p =>
      rcases ih (k + 1) (s.storeOut k (packOf p)) with ⟨hall, m, hm⟩ | ⟨x, hx, hnone, href⟩
      · refine .inl ⟨?_, m, by simp only [encodeWalk, hp, hm]; rfl⟩
        simpa [hp] using hall
      · exact .inr ⟨x, by simp [hx], by simpa using hnone, by simp only [encodeWalk, hp, href]⟩

/-- `ENCODE` with invalid dimensions (R87, R118). -/
theorem execEncode_invalid {s : State} (h : dimsOk s.width s.height = false) :
    execEncode s = .next { s with statusCode := 1#2, outLen := 0#16 } := by
  simp only [execEncode, h]
  rfl

/-- `ENCODE` with valid dimensions and every pixel of the grid held: what `OUT` holds afterwards (R85). -/
theorem execEncode_valid {s : State} (h : dimsOk s.width s.height = true)
    (hg : ∀ a, a < 8 * s.width.toNat → (s.pix.read a).isSome) :
    ∃ m : Memory 8,
      execEncode s = .next { s with
        statusCode := 0#2, outLen := BitVec.ofNat 16 (2 + 8 * s.width.toNat), out := m } ∧
      m.read 0 = some 0#8 ∧ m.read 1 = some (BitVec.ofNat 8 s.width.toNat) ∧
      (∀ a, a < 8 * s.width.toNat → ∃ p, s.pix.read a = some p ∧ m.read (2 + a) = some (packOf p)) ∧
      (∀ b, 2 + 8 * s.width.toNat ≤ b → m.read b = s.out.read b) ∧
      (∀ size, s.out.wf size = true → 2 + 8 * s.width.toNat ≤ size → m.wf size = true) := by
  have hd := dimsOk_eq_true.mp h
  obtain ⟨m, hm, hin, hout, hwf⟩ := encodeWalk_complete (l := walkOrder s.width.toNat) (k := 2)
    (s := s.storeHeader s.width) (fun x hx => by
      have : pixAddr x.1 x.2 ∈ (walkOrder s.width.toNat).map (fun x => pixAddr x.1 x.2) :=
        List.mem_map_of_mem hx
      rw [walkOrder_addresses, List.mem_range] at this
      exact hg _ this)
  rw [walkOrder_length] at hout hwf
  refine ⟨m, ?_, ?_, ?_, ?_, ?_, ?_⟩
  · simp only [execEncode, h, hm]
    rfl
  · rw [hout 0 (by omega)]
    simp [State.storeHeader, headerHigh_valid hd.2.1]
  · rw [hout 1 (by omega)]
    simp [State.storeHeader, headerLow_eq]
  · intro a ha
    obtain ⟨p, hp, hr⟩ := hin a _ (walkOrder_get _ a ha)
    have haddr : pixAddr (a / 8) (a % 8) = a := by simp only [pixAddr]; omega
    simp only [haddr] at hp
    exact ⟨p, hp, hr⟩
  · intro b hb
    rw [hout b (by omega)]
    have h0 : b ≠ 0 := by omega
    have h1 : b ≠ 1 := by omega
    simp [State.storeHeader, h0, h1]
  · intro size hs hk
    exact hwf size (Memory.wf_write _ (Memory.wf_write _ hs (by omega)) (by omega)) (by omega)

/-- What `ENCODE` can do (R87: "there is no third outcome"; R27 adds the refusal). -/
theorem execEncode_cases (s : State) :
    (dimsOk s.width s.height = false ∧ execEncode s = .next { s with statusCode := 1#2, outLen := 0#16 }) ∨
    (dimsOk s.width s.height = true ∧ (∀ a, a < 8 * s.width.toNat → (s.pix.read a).isSome) ∧
      ∃ m : Memory 8, execEncode s = .next { s with
        statusCode := 0#2, outLen := BitVec.ofNat 16 (2 + 8 * s.width.toNat), out := m }) ∨
    (dimsOk s.width s.height = true ∧
      ∃ a, a < 8 * s.width.toNat ∧ s.pix.read a = none ∧ execEncode s = .refused (.unwrittenPix a)) := by
  cases h : dimsOk s.width s.height with
  | false => exact .inl ⟨rfl, execEncode_invalid h⟩
  | true =>
    rcases encodeWalk_cases (walkOrder s.width.toNat) 2 (s.storeHeader s.width) with
      ⟨hall, -⟩ | ⟨x, hx, hn, href⟩
    · have hg : ∀ a, a < 8 * s.width.toNat → (s.pix.read a).isSome := by
        intro a ha
        have haddr : pixAddr (a / 8) (a % 8) = a := by simp only [pixAddr]; omega
        have := hall (a / 8, a % 8) (List.mem_of_getElem? (walkOrder_get _ a ha))
        simpa [haddr, State.storeHeader] using this
      obtain ⟨m, hm, -⟩ := execEncode_valid h hg
      exact .inr (.inl ⟨rfl, hg, m, hm⟩)
    · refine .inr (.inr ⟨rfl, pixAddr x.1 x.2, ?_, hn, by simp only [execEncode, h, href]; rfl⟩)
      have : pixAddr x.1 x.2 ∈ (walkOrder s.width.toNat).map (fun x => pixAddr x.1 x.2) :=
        List.mem_map_of_mem hx
      rwa [walkOrder_addresses, List.mem_range] at this

end Sys2Proof.Machine
end

