-- ==== Sys2Proof/Laws/Exec.lean ====
section
/-! SUPPORT. What each operation can do, in one equation or one case list, and what no operation touches. -/

namespace Sys2Proof.Machine

/-- `VALIDATE` in one equation (R70, R118). -/
theorem execValidate_eq (s : State) :
    execValidate s = .next { s with statusCode := if dimsOk s.width s.height then 0#2 else 1#2 } := by
  cases h : dimsOk s.width s.height <;> simp only [execValidate, h] <;> rfl

/-- `PACKPIXEL` in one equation (R75). -/
theorem execPackPixel_eq (s : State) :
    execPackPixel s =
      .next { s with packed := packOf s.pixelIn, held := { s.held with packed := true } } := rfl

/-- An operation changes at most the status code, `PACKED` with its flag, `OUT_LEN` and `OUT`. -/
theorem exec_next_fields {i : Instr} {s t : State} (h : exec i s = .next t) :
    t = { s with statusCode := t.statusCode, packed := t.packed, outLen := t.outLen, out := t.out,
                 held := { s.held with packed := t.held.packed } } := by
  cases i with
  | validate =>
    change execValidate s = .next t at h
    rw [execValidate_eq] at h
    cases h
    rfl
  | packPixel =>
    change execPackPixel s = .next t at h
    cases h
    rfl
  | encode =>
    change execEncode s = .next t at h
    rcases execEncode_cases s with ⟨-, he⟩ | ⟨-, -, m, he⟩ | ⟨-, a, -, -, he⟩ <;> rw [he] at h <;> cases h <;> rfl

end Sys2Proof.Machine
end

