-- ==== Sys2Proof/Laws/HostPort.lean ====
section
/-! SUPPORT. What a step can do: one inversion lemma, and the single cases of a host access. -/

namespace Sys2Proof.Machine

@[simp] theorem step_idle {s : State} (h : s.pending = []) : step s = .next s := by
  simp only [step, takeTurn, h]

theorem step_event {s : State} {e : Event} {rest : List Event} (h : s.pending = e :: rest) :
    step s = handle e { s with pending := rest } := by
  simp only [step, takeTurn, h]

/-- A command write runs the decoded operation (R18). -/
theorem writeCmd_decoded {v : Nat} {i : Instr} (s : State) (hv : v < 256)
    (hd : decode (BitVec.ofNat 8 v) = .ok i) : writeCmd v s = exec i s := by
  simp only [writeCmd, hv, if_true, hd]

/-- A register write either is a command, or writes one of the three data registers with a value that
fits, or gives no next state (R22, R141). -/
theorem writeRegister_next {n v : Nat} {s t : State} (h : writeRegister n v s = .next t) :
    (n = 0 ∧ ∃ i, v < 256 ∧ decode (BitVec.ofNat 8 v) = .ok i ∧ exec i s = .next t) ∨
    (n = 2 ∧ v < 2 ^ 16 ∧ t = s.setWidth (BitVec.ofNat 16 v)) ∨
    (n = 3 ∧ v < 2 ^ 16 ∧ t = s.setHeight (BitVec.ofNat 16 v)) ∨
    (n = 4 ∧ v < 2 ^ 24 ∧ t = s.setPixelIn (BitVec.ofNat 24 v)) := by
  match n, h with
  | 0, h =>
    simp only [writeRegister, regOfNumber, writeCmd] at h
    split at h
    · split at h
      · exact .inl ⟨rfl, _, ‹_›, ‹_›, h⟩
      · cases h
    · cases h
  | 1, h => cases h
  | 2, h =>
    simp only [writeRegister, regOfNumber] at h
    split at h
    · cases h; exact .inr (.inl ⟨rfl, ‹_›, rfl⟩)
    · cases h
  | 3, h =>
    simp only [writeRegister, regOfNumber] at h
    split at h
    · cases h; exact .inr (.inr (.inl ⟨rfl, ‹_›, rfl⟩))
    · cases h
  | 4, h =>
    simp only [writeRegister, regOfNumber] at h
    split at h
    · cases h; exact .inr (.inr (.inr ⟨rfl, ‹_›, rfl⟩))
    · cases h
  | 5, h => cases h
  | 6, h => cases h
  | _ + 7, h => cases h

/-- A register read gives back the register's number and changes nothing else (R22). -/
theorem readRegister_next {n : Nat} {s t : State} (h : readRegister n s = .next t) :
    ∃ r v, regOfNumber n = some r ∧ s.readReg? r = some v ∧ t = s.answer (.readReg n) v := by
  simp only [readRegister] at h
  split at h
  · cases h
  · split at h
    · cases h; exact ⟨_, _, ‹_›, ‹_›, rfl⟩
    · cases h

theorem writePixel_next {a : Nat} {v : Pixel} {s t : State} (h : writePixel a v s = .next t) :
    a < 1016 ∧ t = s.storePix a v := by
  simp only [writePixel] at h
  split at h
  · cases h; exact ⟨by assumption, rfl⟩
  · cases h

theorem readPixel_next {a : Nat} {s t : State} (h : readPixel a s = .next t) :
    a < 1016 ∧ ∃ v, s.pix.read a = some v ∧ t = s.answer (.readPix a) v.toNat := by
  simp only [readPixel] at h
  split at h
  · split at h
    · cases h; exact ⟨‹_›, _, ‹_›, rfl⟩
    · cases h
  · cases h

theorem readOutByte_next {k : Nat} {s t : State} (h : readOutByte k s = .next t) :
    k < 1018 ∧ ∃ v, s.out.read k = some v ∧ t = s.answer (.readOut k) v.toNat := by
  simp only [readOutByte] at h
  split at h
  · split at h
    · cases h; exact ⟨‹_›, _, ‹_›, rfl⟩
    · cases h
  · cases h

theorem writeOutByte_not_next (k : Nat) (t : State) : writeOutByte k ≠ .next t := by
  intro h
  simp only [writeOutByte] at h
  split at h <;> cases h

/-- What an event can do when it is completed. -/
theorem handle_next {e : Event} {s t : State} (h : handle e s = .next t) :
    (∃ v i, e = .writeReg 0 v ∧ v < 256 ∧ decode (BitVec.ofNat 8 v) = .ok i ∧ exec i s = .next t) ∨
    (∃ v, e = .writeReg 2 v ∧ v < 2 ^ 16 ∧ t = s.setWidth (BitVec.ofNat 16 v)) ∨
    (∃ v, e = .writeReg 3 v ∧ v < 2 ^ 16 ∧ t = s.setHeight (BitVec.ofNat 16 v)) ∨
    (∃ v, e = .writeReg 4 v ∧ v < 2 ^ 24 ∧ t = s.setPixelIn (BitVec.ofNat 24 v)) ∨
    (∃ a v, e = .writePix a v ∧ a < 1016 ∧ t = s.storePix a v) ∨
    (∃ n r v, e = .readReg n ∧ regOfNumber n = some r ∧ s.readReg? r = some v ∧ t = s.answer e v) ∨
    (∃ a v, e = .readPix a ∧ a < 1016 ∧ s.pix.read a = some v ∧ t = s.answer e v.toNat) ∨
    (∃ k v, e = .readOut k ∧ k < 1018 ∧ s.out.read k = some v ∧ t = s.answer e v.toNat) ∨
    (e = .reset ∧ t = s.resetBlock) := by
  cases e with
  | writeReg n v =>
    rcases writeRegister_next h with ⟨rfl, i, hi⟩ | ⟨rfl, hi⟩ | ⟨rfl, hi⟩ | ⟨rfl, hi⟩
    · exact .inl ⟨v, i, rfl, hi⟩
    · exact .inr (.inl ⟨v, rfl, hi⟩)
    · exact .inr (.inr (.inl ⟨v, rfl, hi⟩))
    · exact .inr (.inr (.inr (.inl ⟨v, rfl, hi⟩)))
  | readReg n =>
    obtain ⟨r, v, hr⟩ := readRegister_next h
    exact .inr (.inr (.inr (.inr (.inr (.inl ⟨n, r, v, rfl, hr⟩)))))
  | writePix a v => exact .inr (.inr (.inr (.inr (.inl ⟨a, v, rfl, writePixel_next h⟩))))
  | readPix a =>
    obtain ⟨ha, v, hv⟩ := readPixel_next h
    exact .inr (.inr (.inr (.inr (.inr (.inr (.inl ⟨a, v, rfl, ha, hv⟩))))))
  | writeOut k v => exact absurd h (writeOutByte_not_next k t)
  | readOut k =>
    obtain ⟨hk, v, hv⟩ := readOutByte_next h
    exact .inr (.inr (.inr (.inr (.inr (.inr (.inr (.inl ⟨k, v, rfl, hk, hv⟩)))))))
  | reset =>
    cases h
    exact .inr (.inr (.inr (.inr (.inr (.inr (.inr (.inr ⟨rfl, rfl⟩)))))))

/-- What a step can do when it is completed: idle, or one event handled. -/
theorem step_next {s t : State} (h : step s = .next t) :
    (s.pending = [] ∧ t = s) ∨
      ∃ e rest, s.pending = e :: rest ∧ handle e { s with pending := rest } = .next t := by
  cases hp : s.pending with
  | nil => rw [step_idle hp] at h; cases h; exact .inl ⟨rfl, rfl⟩
  | cons e rest => exact .inr ⟨e, rest, rfl, by rw [← step_event hp]; exact h⟩

end Sys2Proof.Machine
end

