-- ==== Sys2Proof/Laws/HostTool.lean ====
section
/-! SUPPORT. Running the machine until a list of accesses is done, one access at a time. -/

namespace Sys2Proof.Machine

/-- The valid dimensions of an image in numbers (R6). -/
theorem dimsValid_iff (img : Image) :
    img.dimsValid = true ↔ 1 ≤ img.width ∧ img.width ≤ 127 ∧ img.height = 8 := by
  simp [Image.dimsValid, Config.wMin, Config.wMax, Config.hReq, and_assoc]

/-- An access that completes takes nothing off, and adds nothing to, what the host has still to do. -/
theorem handle_pending {e : Event} {s t : State} (h : handle e s = .next t) : t.pending = s.pending := by
  rcases handle_next h with ⟨v, i, rfl, -, -, he⟩ | ⟨v, rfl, -, rfl⟩ | ⟨v, rfl, -, rfl⟩ | ⟨v, rfl, -, rfl⟩ |
    ⟨a, v, rfl, -, rfl⟩ | ⟨n, r, v, rfl, -, -, rfl⟩ | ⟨a, v, rfl, -, -, rfl⟩ | ⟨k, v, rfl, -, -, rfl⟩ | ⟨rfl, rfl⟩
  · rw [exec_next_fields he]
  all_goals rfl

@[simp] theorem runAccesses_nil (s : State) : runAccesses [] s = .next { s with pending := [] } := rfl

/-- One access of a run: if it completes, the rest runs from the state it leaves. -/
theorem runAccesses_cons {e : Event} {es : List Event} {s t : State}
    (h : handle e { s with pending := es } = .next t) : runAccesses (e :: es) s = runAccesses es t := by
  have hs : step { s with pending := e :: es } = .next t := by rw [step_event rfl]; exact h
  have hp : t.pending = es := handle_pending h
  have ht : { t with pending := es } = t := by rw [← hp]
  have hc : Sys2Proof.core.step { s with pending := e :: es } = .next t := hs
  simp only [runAccesses, List.length_cons, Host.Core.run, hc, ht]
  rfl

/-- What was pending before a run of accesses does not matter to it. -/
theorem runAccesses_pending (es p : List Event) (s : State) :
    runAccesses es { s with pending := p } = runAccesses es s := rfl

end Sys2Proof.Machine
end

