-- ==== Sys2Proof/Laws/PerInstr.lean ====
section
/-! SUPPORT. The per-instruction family: each operation's syntax against its row of the opcode table. -/

namespace Sys2Proof.Laws.OpcodeRow

/-- The operation is well-formed, has exactly one row of the opcode table, that row looks at the whole
byte, and its pattern is the operation's command byte, whose bits 7:2 are zero (R60, R61, R64). -/
def Statement (i : Instr) : Prop :=
  i.wf = true ∧ (encode i).extractLsb' 2 6 = 0#6 ∧
    ∃ r, opcodeTable.filter (fun r => r.instr == i) = [r] ∧ r.mask = 0xFF#8 ∧ r.pattern = encode i

theorem validate : Statement .validate :=
  ⟨rfl, rfl, ⟨"VALIDATE", 0xFF#8, 0x00#8, .validate⟩, rfl, rfl, rfl⟩

theorem packPixel : Statement .packPixel :=
  ⟨rfl, rfl, ⟨"PACKPIXEL", 0xFF#8, 0x01#8, .packPixel⟩, rfl, rfl, rfl⟩

theorem encode : Statement .encode :=
  ⟨rfl, rfl, ⟨"ENCODE", 0xFF#8, 0x02#8, .encode⟩, rfl, rfl, rfl⟩

end Sys2Proof.Laws.OpcodeRow
end

