-- ==== Sys2Proof/Laws/Render.lean ====
section
/-! SUPPORT. Numerals and pieces: what `dec` writes, `readDecimal` reads; what a comma separates, `splitCommas` separates. -/

namespace Sys2Proof.Machine

theorem digitVal_digitChar : ∀ d, d < 10 → digitVal (digitChar d) = some d := by decide

/-- The characters of a numeral are the ten digits (R102). -/
def isDigit (c : Char) : Prop := ∃ d, d < 10 ∧ c = digitChar d

theorem isDigit_not_special {c : Char} (h : isDigit c) :
    c ≠ ',' ∧ isBlank c = false ∧ c ≠ leftBrace ∧ c ≠ rightBrace ∧ c ≠ lineBreak := by
  obtain ⟨d, hd, rfl⟩ := h
  revert d
  decide

theorem decDigits_isDigit (fuel v : Nat) : ∀ c ∈ decDigits fuel v, isDigit c := by
  induction fuel generalizing v with
  | zero =>
    intro c hc
    simp only [decDigits, List.mem_singleton] at hc
    exact ⟨v % 10, Nat.mod_lt _ (by omega), hc⟩
  | succ fuel ih =>
    intro c hc
    simp only [decDigits] at hc
    split at hc
    · simp only [List.mem_singleton] at hc
      exact ⟨v, by assumption, hc⟩
    · rcases List.mem_append.mp hc with h | h
      · exact ih _ _ h
      · simp only [List.mem_singleton] at h
        exact ⟨v % 10, Nat.mod_lt _ (by omega), h⟩

theorem decDigits_ne_nil (fuel v : Nat) : decDigits fuel v ≠ [] := by
  cases fuel with
  | zero => simp [decDigits]
  | succ fuel => simp only [decDigits]; split <;> simp

theorem dec_isDigit (v : Nat) : ∀ c ∈ dec v, isDigit c := decDigits_isDigit v v

theorem dec_ne_nil (v : Nat) : dec v ≠ [] := decDigits_ne_nil v v

/-- Reading the digits of `v` after a value read so far shifts that value and adds `v`. -/
theorem readDigits_decDigits (fuel v : Nat) (h : v < 10 ^ (fuel + 1)) :
    ∃ n, ∀ acc rest, readDigits (decDigits fuel v ++ rest) acc = readDigits rest (acc * 10 ^ n + v) := by
  induction fuel generalizing v with
  | zero =>
    refine ⟨1, fun acc rest => ?_⟩
    have hv : v % 10 = v := Nat.mod_eq_of_lt (by simpa using h)
    simp only [decDigits, hv, List.singleton_append, readDigits,
      digitVal_digitChar v (by simpa using h), Nat.pow_one, Nat.mul_comm]
  | succ fuel ih =>
    simp only [decDigits]
    split
    · rename_i hv
      refine ⟨1, fun acc rest => ?_⟩
      simp only [List.singleton_append, readDigits, digitVal_digitChar v hv, Nat.pow_one, Nat.mul_comm]
    · obtain ⟨n, hn⟩ := ih (v / 10) (by rw [Nat.pow_succ] at h; omega)
      refine ⟨n + 1, fun acc rest => ?_⟩
      rw [List.append_assoc, hn]
      simp only [List.singleton_append, readDigits, digitVal_digitChar (v % 10) (Nat.mod_lt _ (by omega))]
      congr 1
      have : acc * 10 ^ (n + 1) = 10 * (acc * 10 ^ n) := by rw [Nat.pow_succ]; ring
      omega

theorem readDecimal_dec (v : Nat) : readDecimal (dec v) = some v := by
  obtain ⟨n, hn⟩ := readDigits_decDigits v v (Nat.lt_of_lt_of_le (Nat.lt_pow_self (by omega)) (Nat.pow_le_pow_right (by omega) (by omega)))
  have h := hn 0 []
  simp only [List.append_nil, Nat.zero_mul, Nat.zero_add, readDigits] at h
  cases hd : dec v with
  | nil => exact absurd hd (dec_ne_nil v)
  | cons c rest =>
    rw [show dec v = decDigits v v from rfl] at hd
    rw [readDecimal, ← hd, h]

/-- Stripping takes away the white space around a numeral and nothing of it (R109). -/
theorem strip_dec (v : Nat) (before after : Text) (hb : ∀ c ∈ before, isBlank c = true)
    (ha : ∀ c ∈ after, isBlank c = true) : strip (before ++ dec v ++ after) = dec v := by
  have drop : ∀ (pre t : Text), (∀ c ∈ pre, isBlank c = true) → (∀ c ∈ t.head?, isBlank c = false) →
      (pre ++ t).dropWhile isBlank = t := by
    intro pre t hp ht
    induction pre with
    | nil =>
      cases t with
      | nil => rfl
      | cons c rest => simp [ht c (by simp)]
    | cons c rest ih =>
      simp only [List.cons_append, List.dropWhile_cons, hp c (by simp), if_true]
      exact ih fun d hd => hp d (by simp [hd])
  have hdig : ∀ c ∈ dec v, isBlank c = false := fun c hc => (isDigit_not_special (dec_isDigit v c hc)).2.1
  have hmem : ∀ (t : Text) (c : Char), c ∈ t.head? → c ∈ t := by
    intro t c hc
    cases t with
    | nil => simp at hc
    | cons d rest => simp only [List.head?_cons, Option.mem_some_iff] at hc; simp [hc]
  rw [strip, List.append_assoc, drop before _ hb, List.reverse_append,
    drop after.reverse _ (by simpa using ha), List.reverse_reverse]
  · intro c hc
    exact hdig c (by simpa using hmem _ c hc)
  · intro c hc
    rw [List.head?_append_of_ne_nil _ (dec_ne_nil v)] at hc
    exact hdig c (hmem _ c hc)

theorem splitCommas_comma (t rest piece : Text) (h : ∀ c ∈ t, c ≠ ',') :
    splitCommas (t ++ ',' :: rest) piece = (piece ++ t) :: splitCommas rest [] := by
  induction t generalizing piece with
  | nil => simp [splitCommas]
  | cons c t ih =>
    simp only [List.cons_append, splitCommas, beq_iff_eq, h c (by simp), if_false]
    rw [ih _ fun d hd => h d (by simp [hd])]
    simp

theorem splitCommas_end (t piece : Text) (h : ∀ c ∈ t, c ≠ ',') : splitCommas t piece = [piece ++ t] := by
  induction t generalizing piece with
  | nil => simp [splitCommas]
  | cons c t ih =>
    simp only [splitCommas, beq_iff_eq, h c (by simp), if_false]
    rw [ih _ fun d hd => h d (by simp [hd])]
    simp

end Sys2Proof.Machine
end

