-- ==== Sys2Proof/Tests/Slice0.lean ====
section
/-! SUPPORT. Small tests, with expected values from the spec's own examples, and witnesses for the hypotheses of the statements. -/

namespace Sys2Proof.Tests

open Sys2Proof.Machine

/-- The next state, where there is one. -/
def nextOf : Host.Outcome State Fault Refusal → Option State
  | .next t => some t
  | _ => none

/-- A state with the given dimensions and pixels. -/
def withGrid (w h : Dim) (m : Memory 24) : State := { State.reset with width := w, height := h, pix := m }

/-- A state whose host makes one access next. -/
def withNext (e : Event) : State := { State.reset with pending := [e] }

/-- `n` entries of one pixel. -/
def gridOf (p : Pixel) (n : Nat) : Memory 24 := (List.range n).map fun a => (a, p)

/-- One byte of `OUT` in the next state. -/
def outAt (o : Host.Outcome State Fault Refusal) (k : Nat) : Option Byte := (nextOf o).bind fun t => t.out.read k

/-! ### Decoding: the words of R60, bit by bit -/

theorem test_decode_validate : decode 0b00000000#8 = .ok .validate := rfl
theorem test_decode_packPixel : decode 0b00000001#8 = .ok .packPixel := rfl
theorem test_decode_encode : decode 0b00000010#8 = .ok .encode := rfl
/-- `op = 3` is reserved (R62). -/
theorem test_decode_reserved_op : decode 0b00000011#8 = .error (.reserved 0b00000011#8) := rfl
/-- Bit 2 set is reserved (R62). -/
theorem test_decode_reserved_bit : decode 0b00000101#8 = .error (.reserved 0b00000101#8) := rfl
theorem test_decodeBytes_two : decodeBytes [0x00#8, 0x00#8] = .error (.notOneByte 2) := rfl
theorem test_decodeBytes_none : decodeBytes [] = .error (.notOneByte 0) := rfl
theorem test_decodeTableWord : decodeTableWord 8 2 = some .encode ∧ decodeTableWord 8 3 = none := ⟨rfl, rfl⟩
/-- No two rows of the opcode map cover one byte. -/
theorem test_rows_disjoint :
    opcodeTable.Pairwise fun r q => (r.pattern ^^^ q.pattern) &&& (r.mask &&& q.mask) ≠ 0#8 := by decide
theorem test_encode_words :
    encode .validate = 0b00000000#8 ∧ encode .packPixel = 0b00000001#8 ∧ encode .encode = 0b00000010#8 :=
  ⟨rfl, rfl, rfl⟩

/-! ### WellFormed: an ill-formed term for each check (operations have none, R61) -/

theorem test_wf_reserved_command : Event.wf (.writeReg 0 3) = false := rfl
theorem test_wf_width_too_wide : Event.wf (.writeReg 2 65536) = false := rfl
theorem test_wf_height_too_wide : Event.wf (.writeReg 3 65536) = false := rfl
theorem test_wf_pixelIn_too_wide : Event.wf (.writeReg 4 16777216) = false := rfl
theorem test_wf_read_only : ∀ n ∈ [1, 5, 6, 7], Event.wf (.writeReg n 0) = false := by decide
theorem test_wf_read_cmd : Event.wf (.readReg 0) = false := rfl
theorem test_wf_read_no_register : Event.wf (.readReg 7) = false := rfl
theorem test_wf_pix_address : Event.wf (.writePix 1016 0) = false ∧ Event.wf (.readPix 1016) = false := ⟨rfl, rfl⟩
theorem test_wf_out_address : Event.wf (.readOut 1018) = false := rfl
theorem test_wf_host_write_out : Event.wf (.writeOut 0 0) = false := rfl

/-! ### The three operations -/

/-- 95_test_vectors.md 2.1: width 257 fails on its whole 16 bits although its low byte would pass. -/
theorem test_validate_whole_width :
    (nextOf (exec .validate (withGrid 257#16 8#16 []))).map (·.status) = some 0x01#8 := by decide
/-- R72: 127 by 8 passes. -/
theorem test_validate_upper_bound :
    (nextOf (exec .validate (withGrid 127#16 8#16 []))).map (·.status) = some 0x00#8 := by decide
/-- RPW §8 (S5): green bit 5 goes to bit 2. -/
theorem test_packPixel_green :
    (nextOf (exec .packPixel { State.reset with pixelIn := 0x002000#24 })).map (·.packed) = some 0x04#8 := by decide
/-- 95_test_vectors.md 2.2: 0xABCDEF packs to 0xBB. -/
theorem test_packPixel_mixed :
    (nextOf (exec .packPixel { State.reset with pixelIn := 0xABCDEF#24 })).map (·.packed) = some 0xBB#8 := by decide
/-- RPW §8 (S11): a 1 by 8 black image has 10 bytes, 0 and 1 first. -/
theorem test_encode_black :
    (nextOf (exec .encode (withGrid 1#16 8#16 (gridOf 0#24 8)))).map (fun t => (t.outLen, t.out.map (·.2))) =
      some (10#16, [0, 1, 0, 0, 0, 0, 0, 0, 0, 0]) := by decide
/-- 95_test_vectors.md E2: two columns, white then blue, come out column by column. -/
theorem test_encode_columns :
    outAt (exec .encode (withGrid 2#16 8#16 (gridOf 0xFFFFFF#24 8 ++ (List.range 8).map fun a => (8 + a, 0x0000FF#24)))) 9 = some 255#8 ∧
    outAt (exec .encode (withGrid 2#16 8#16 (gridOf 0xFFFFFF#24 8 ++ (List.range 8).map fun a => (8 + a, 0x0000FF#24)))) 10 = some 3#8 := by
  decide

/-! ### The host's accesses -/

/-- R124: an access to a location that does not exist is refused, no error of the block. -/
theorem test_step_no_register : step (withNext (.readReg 7)) = .refused (.noSuchRegister 7) := rfl
/-- P6: a reserved command is refused. -/
theorem test_step_reserved : step (withNext (.writeReg 0 3)) = .refused (.reservedCommand 3) := rfl
/-- P6: `ENCODE` with `WIDTH` never written is no run the spec gives a meaning (log 1). -/
theorem test_unwritten_width_not_held : Event.readsHeld (commandEvent .encode) State.reset.held = false := rfl
/-- R66: `WRPIX 1, 2, r, g, b` writes `PIX[10]`. -/
theorem test_wrPix : wrPix 1 2 0x12 0x34 0x56 = .writePix 10 0x123456#24 := by decide
/-- The next step after placing a command runs it (log 4). -/
theorem test_withFetchWord :
    step (State.reset.withFetchWord 8 1) = exec .packPixel State.reset := rfl

/-! ### RENDER and PARSE -/

/-- R113: one line of RPW's example, and the 101 characters of the whole. -/
theorem test_render_length :
    (render false (some 32) (0#8 :: 2#8 :: List.replicate 16 224#8)).toOption.map List.length = some 101 := by decide
/-- R102: 224 is written with its three digits, 0 with one. -/
theorem test_dec : dec 224 = ['2', '2', '4'] ∧ dec 0 = ['0'] := by decide
/-- T2: the 1 by 8 black image parses back (R109). -/
theorem test_parse :
    (render false none (0#8 :: 1#8 :: List.replicate 8 0#8)).toOption.bind parse =
      some [0, 1, 0, 0, 0, 0, 0, 0, 0, 0] := by decide

/-! ### Witnesses: states and operands that meet the hypotheses of the statements -/

theorem gridOf_read (p : Pixel) (n a : Nat) (h : a < n) : (gridOf p n).read a = some p := by
  have first : ∀ (l : List Nat), a ∈ l → Memory.read (l.map fun b => (b, p)) a = some p := by
    intro l
    induction l with
    | nil => simp
    | cons b rest ih =>
      intro hm
      by_cases hb : a = b
      · simp [Memory.read, hb]
      · simpa [Memory.read, hb] using ih (by simpa [hb] using hm)
  exact first _ (List.mem_range.mpr h)

/-- Every pixel of a valid grid of one colour holds it. -/
theorem withGrid_read (w h : Dim) (p : Pixel) (n a : Nat) (hn : 8 * w.toNat = n)
    (ha : a < 8 * (withGrid w h (gridOf p n)).width.toNat) : (withGrid w h (gridOf p n)).pix.read a = some p :=
  gridOf_read p n a (by have hw : a < 8 * w.toNat := ha; omega)

theorem witness_DecoderComparesWithThreeValues : 3 ≤ (0x03#8).toNat ∧ 3 ≤ (0xFF#8).toNat := by decide
theorem witness_DecodeInvertsEncode : ∀ i : Instr, ∃ b : Byte, decode b = .ok i
  | .validate => ⟨0x00, rfl⟩
  | .packPixel => ⟨0x01, rfl⟩
  | .encode => ⟨0x02, rfl⟩
theorem witness_StepRunsDecodedCommand :
    ∃ (s : State) (v : Nat) (i : Instr) (rest : List Event),
      s.pending = .writeReg 0 v :: rest ∧ v < 256 ∧ decode (BitVec.ofNat 8 v) = .ok i :=
  ⟨withNext (.writeReg 0 2), 2, .encode, [], rfl, by decide, rfl⟩
theorem witness_ReservedCommandIsRefused : ∀ v ∈ [0x03, 0xFF],
    (withNext (.writeReg 0 v)).pending = .writeReg 0 v :: [] ∧ 0x03 ≤ v ∧ v ≤ 0xFF := by
  decide
theorem witness_ValidateLooksAtDimensionsOnly :
    ∃ s₁ s₂ : State, s₁ ≠ s₂ ∧ s₁.width = s₂.width ∧ s₁.height = s₂.height :=
  ⟨withGrid 1#16 8#16 [], withGrid 1#16 8#16 (gridOf 0#24 8), by decide, rfl, rfl⟩
theorem witness_VerdictIsNotSticky : ∀ w ∈ [1, 127], 1 ≤ w ∧ w ≤ 127 ∧
    ∃ s : State, s.status = 0x01#8 ∧ s.pending = [.writeReg 2 w, .writeReg 3 8, .writeReg 0 0x00] := by
  intro w hw
  simp only [List.mem_cons, List.not_mem_nil, or_false] at hw
  exact ⟨by omega, by omega, { State.reset with statusCode := 1#2, pending := _ },
    show (0#6 ++ 1#2 : Byte) = 0x01#8 by decide, rfl⟩
theorem witness_EveryByteIsPackedOnce :
    (0xE0#8).toNat % 32 = 0 ∧ (0x20#8).toNat % 32 = 0 ∧ (0xC0#8).toNat % 64 = 0 ∧ pack 0xE0 0x20 0xC0 = 0xE7#8 := by
  decide
theorem witness_PackIsMonotone :
    (0x1F#8).toNat ≤ (0x20#8).toNat ∧ (0#8).toNat ≤ (0xFF#8).toNat ∧ (0x3F#8).toNat ≤ (0x40#8).toNat := by
  decide
/-- R72's boundary cases of invalid dimensions. -/
theorem witness_InvalidDimensionsEffect :
    ∀ x ∈ [(0#16, 8#16), (128#16, 8#16), (1#16, 7#16), (127#16, 9#16)], ¬ (withGrid x.1 x.2 []).DimsValid := by
  simp [withGrid, State.DimsValid]
theorem witness_EncodeProducesThePackedImage_least :
    (withGrid 1#16 8#16 (gridOf 0#24 8)).DimsValid ∧ (withGrid 1#16 8#16 (gridOf 0#24 8)).GridLoaded 1 :=
  ⟨by decide, fun a h => by rw [show (withGrid 1#16 8#16 (gridOf 0#24 8)).pix = gridOf 0#24 8 from rfl, gridOf_read 0#24 8 a (by omega)]; rfl⟩
theorem witness_EncodeProducesThePackedImage_largest :
    (withGrid 127#16 8#16 (gridOf 0#24 1016)).DimsValid ∧ (withGrid 127#16 8#16 (gridOf 0#24 1016)).GridLoaded 127 :=
  ⟨by simp [withGrid, State.DimsValid], fun a h => by
    rw [withGrid_read 127#16 8#16 0#24 1016 a (by simp) (by simpa [withGrid] using h)]; rfl⟩
theorem witness_EncodeProducesThePackedImage_invalid : ¬ (withGrid 0#16 8#16 []).DimsValid := by decide
/-- A state in which `ENCODE` completes with valid dimensions; used for the statements about such a run. -/
theorem encode_one_column_completes : ∃ t, exec .encode (withGrid 1#16 8#16 (gridOf 0#24 8)) = .next t := by
  obtain ⟨m, h, -⟩ := execEncode_valid (s := withGrid 1#16 8#16 (gridOf 0#24 8)) (by decide)
    witness_EncodeProducesThePackedImage_least.2
  exact ⟨_, h⟩
theorem witness_HeaderIsZeroThenWidth :
    ∃ s t : State, s.DimsValid ∧ exec .encode s = .next t :=
  ⟨_, _, by decide, encode_one_column_completes.choose_spec⟩
theorem witness_EncodeRefusesAnUnwrittenPixel :
    ∀ a ∈ [0, 7], (withGrid 1#16 8#16 (gridOf 0#24 a)).DimsValid ∧ a < 8 * (withGrid 1#16 8#16 (gridOf 0#24 a)).width.toNat ∧
      (withGrid 1#16 8#16 (gridOf 0#24 a)).pix.read a = none ∧
      ∀ b, b < a → ((withGrid 1#16 8#16 (gridOf 0#24 a)).pix.read b).isSome := by
  decide
theorem witness_EncodeStoresOnlyThePackedImage :
    (∃ t, exec .encode (withGrid 0#16 8#16 []) = .next t ∧ ¬ (withGrid 0#16 8#16 []).DimsValid) ∧
    (∃ t, exec .encode (withGrid 1#16 8#16 (gridOf 0#24 8)) = .next t ∧
      10 ≠ 0 ∧ 10 ≠ 1 ∧ ∀ i j, i < 1 → j < 8 → 10 ≠ outIndex i j) := by
  obtain ⟨t, ht⟩ := encode_one_column_completes
  exact ⟨⟨_, rfl, by decide⟩, t, ht, by decide, by decide, fun i j hi hj => by simp only [outIndex]; omega⟩
theorem witness_PackedImageDependsOnTheGridOnly :
    ∃ s₁ s₂ t₁ : State, s₁ ≠ s₂ ∧ s₁.DimsValid ∧ s₁.width = s₂.width ∧ s₁.height = s₂.height ∧
      (∀ a, a < 8 * s₁.width.toNat → s₁.pix.read a = s₂.pix.read a) ∧ exec .encode s₁ = .next t₁ :=
  ⟨withGrid 1#16 8#16 (gridOf 0#24 8), withGrid 1#16 8#16 (gridOf 0#24 9), _, by decide, by decide, rfl, rfl, by decide,
    encode_one_column_completes.choose_spec⟩
theorem witness_FirstColumnsComeFirst :
    ∃ (s t : State) (v : Dim), s.DimsValid ∧ exec .encode s = .next t ∧ 1 ≤ v.toNat ∧ v.toNat < s.width.toNat := by
  obtain ⟨m, h, -⟩ := execEncode_valid (s := withGrid 2#16 8#16 (gridOf 0#24 16)) (by decide)
    (fun a ha => by
      rw [show (withGrid 2#16 8#16 (gridOf 0#24 16)).pix = gridOf 0#24 16 from rfl, gridOf_read 0#24 16 a ha]; rfl)
  exact ⟨_, _, 1, by decide, h, by decide, by decide⟩
theorem witness_EncodeTwiceIsEncodeOnce :
    ∃ s t : State, s.out.wf 1018 = true ∧ exec .encode s = .next t :=
  ⟨_, _, rfl, encode_one_column_completes.choose_spec⟩
theorem witness_UniformImagePixelBytes : ∀ p ∈ [0xFF0000#24, 0#24],
    (withGrid 127#16 8#16 (gridOf p 1016)).DimsValid ∧
      ∀ a, a < 8 * (withGrid 127#16 8#16 (gridOf p 1016)).width.toNat → (withGrid 127#16 8#16 (gridOf p 1016)).pix.read a = some p := by
  intro p _
  exact ⟨by simp [withGrid, State.DimsValid], fun a h => withGrid_read 127#16 8#16 p 1016 a (by simp) h⟩
theorem witness_ResetEventResetsTheBlock : (withNext .reset).pending = .reset :: [] := rfl
/-- A state with output, after a 1 by 8 image, and a command to come. -/
def afterImage : State :=
  { withNext (commandEvent .packPixel) with
    outLen := 10, out := (List.range 10).map fun k => (k, if k = 1 then 1#8 else 0#8) }
theorem afterImage_inv : afterImage.Inv :=
  ⟨rfl, rfl, .inl (by decide), .inr ⟨1, by decide, by decide, rfl, rfl, rfl, by decide⟩⟩
theorem witness_StepKeepsTheInvariant : ∃ s t : State, s.Inv ∧ step s = .next t :=
  ⟨afterImage, _, afterImage_inv, rfl⟩
theorem witness_UnwrittenRegistersCannotBeSeen :
    ∃ s₁ s₂ t₁ : State, s₁ ≠ s₂ ∧ s₁.AgreeOnHeld s₂ ∧
      (∀ e rest, s₁.pending = e :: rest → Event.readsHeld e s₁.held = true) ∧ step s₁ = .next t₁ := by
  refine ⟨withNext (.readReg 1), { withNext (.readReg 1) with width := 5 }, _, by decide,
    ⟨rfl, rfl, rfl, rfl, rfl, rfl, rfl, ?_, ?_, ?_, ?_⟩, ?_, rfl⟩
  · intro h; cases h
  · intro h; cases h
  · intro h; cases h
  · intro h; cases h
  · intro e rest h; cases h; rfl
theorem witness_OperationsNeverWriteTheirInputs : ∀ i : Instr, ∃ s t : State, exec i s = .next t
  | .validate => ⟨State.reset, _, rfl⟩
  | .packPixel => ⟨State.reset, _, rfl⟩
  | .encode => ⟨State.reset, _, rfl⟩
theorem witness_StateChanges_out :
    ∃ s t : State, step s = .next t ∧ t.outLen ≠ s.outLen :=
  ⟨{ withNext (commandEvent .encode) with outLen := 10 }, _, rfl, by decide⟩
theorem witness_StateChanges_packed : ∃ s t : State, step s = .next t ∧ t.packed ≠ s.packed :=
  ⟨{ withNext (commandEvent .packPixel) with pixelIn := 0xFF0000 }, _, rfl, by decide⟩
theorem witness_StateChanges_status : ∃ s t : State, step s = .next t ∧ t.status ≠ s.status :=
  ⟨withNext (commandEvent .validate), _, rfl, by decide⟩
theorem witness_StateChanges_width : ∃ s t : State, step s = .next t ∧ t.width ≠ s.width :=
  ⟨withNext (.writeReg 2 65535), _, rfl, by decide⟩
theorem witness_StateChanges_height : ∃ s t : State, step s = .next t ∧ t.height ≠ s.height :=
  ⟨withNext (.writeReg 3 8), _, rfl, by decide⟩
theorem witness_StateChanges_pixelIn : ∃ s t : State, step s = .next t ∧ t.pixelIn ≠ s.pixelIn :=
  ⟨withNext (.writeReg 4 16777215), _, rfl, by decide⟩
theorem witness_StateChanges_pix : ∃ s t : State, step s = .next t ∧ t.pix ≠ s.pix :=
  ⟨withNext (.writePix 1015 0), _, rfl, by decide⟩
theorem witness_HostWriteLoadsTheRegister :
    (withNext (.writeReg 2 65535)).pending = .writeReg 2 65535 :: [] ∧ 65535 < 65536 ∧
    (withNext (.writeReg 3 65535)).pending = .writeReg 3 65535 :: [] ∧
    (withNext (.writeReg 4 16777215)).pending = .writeReg 4 16777215 :: [] ∧ 16777215 < 16777216 := by
  decide
theorem witness_HostReadReturnsTheRegister : ∀ n ∈ [1, 2, 3, 4, 5, 6],
    (withNext (.readReg n)).pending = .readReg n :: [] ∧ 1 ≤ n ∧ n ≤ 6 := by
  decide
theorem witness_HostPixelWriteThenRead : ∀ a ∈ [0, 1015],
    (withNext (.writePix a 1)).pending = .writePix a 1 :: [] ∧ a < 1016 := by
  decide
theorem witness_HostMemoryReads :
    (∃ s : State, s.pending = .readPix 1015 :: [] ∧ s.pix.read 1015 = some 7#24) ∧
    (∃ s : State, s.pending = .readOut 1017 :: [] ∧ s.out.read 1017 = some 7#8) :=
  ⟨⟨{ withNext (.readPix 1015) with pix := [(1015, 7)] }, rfl, rfl⟩,
    ⟨{ withNext (.readOut 1017) with out := [(1017, 7)] }, rfl, rfl⟩⟩
theorem witness_BytesBelowOutLenCanBeRead : ∀ k ∈ [0, 9],
    State.OutputLegal { afterImage with pending := [.readOut k] } ∧ k < afterImage.outLen.toNat := by
  intro k hk
  refine ⟨afterImage_inv.output, ?_⟩
  revert k
  decide
theorem witness_UnwrittenEntryReadIsRefused :
    ((withNext (.readPix 1015)).pending = .readPix 1015 :: [] ∧ (withNext (.readPix 1015)).pix.read 1015 = none) ∧
    ((withNext (.readOut 1017)).pending = .readOut 1017 :: [] ∧ (withNext (.readOut 1017)).out.read 1017 = none) := by
  decide
theorem witness_IllFormedAccessNeverCompletes :
    ∀ e ∈ [Event.writeReg 0 3, .writeReg 1 0, .readReg 7, .writePix 1016 0, .writeOut 0 0, .readOut 1018,
        .writeReg 0 256, .writeReg 2 65536, .writeReg 3 65536, .writeReg 4 16777216],
      (withNext e).pending = e :: [] ∧ e.wf = false := by
  decide
theorem witness_WellFormedAccessCompletes :
    ∃ (s : State) (e : Event), s.pending = e :: [] ∧ e.wf = true ∧
      (∀ a, e = .readPix a → (s.pix.read a).isSome) ∧ (∀ k, e = .readOut k → (s.out.read k).isSome) ∧
      (e = commandEvent .encode → s.DimsValid → s.GridLoaded s.width.toNat) := by
  refine ⟨{ withGrid 1#16 8#16 (gridOf 0#24 8) with pending := [commandEvent .encode] }, _, rfl, rfl, ?_, ?_, ?_⟩
  · intro a h; cases h
  · intro k h; cases h
  · intro _ _; exact witness_EncodeProducesThePackedImage_least.2
theorem witness_IllegalAccessesStopByName :
    (withNext (.writeReg 7 0)).pending = [.writeReg 7 0] ∧ (withNext (.readReg 7)).pending = [.readReg 7] ∧
    (withNext (.writePix 1016 0)).pending = [.writePix 1016 0] ∧ (withNext (.readPix 1016)).pending = [.readPix 1016] ∧
    (withNext (.readOut 1018)).pending = [.readOut 1018] ∧
    (∀ n ∈ [1, 5, 6], (withNext (.writeReg n 0)).pending = [.writeReg n 0]) ∧
    (withNext (.readReg 0)).pending = [.readReg 0] ∧ (withNext (.writeOut 1017 0)).pending = [.writeOut 1017 0] ∧
    (withNext (.writeOut 1018 0)).pending = [.writeOut 1018 0] ∧ (withNext (.writeReg 0 256)).pending = [.writeReg 0 256] ∧
    (∀ n ∈ [2, 3], (withNext (.writeReg n 65536)).pending = [.writeReg n 65536]) ∧
    (withNext (.writeReg 4 16777216)).pending = [.writeReg 4 16777216] := by
  decide
theorem witness_IdleBlockHoldsItsState : State.reset.pending = [] := rfl
theorem witness_CanonicalMemoriesAreEqualData :
    Memory.wf 1016 (gridOf 5 3) = true ∧ (∀ a, a < 1016 → (gridOf 5 3).read a = (gridOf 5 3).read a) :=
  ⟨rfl, fun _ _ => rfl⟩
/-- The PackedImage of a `w` by 8 black image. -/
def blackImage (w : Nat) : List Byte := 0#8 :: BitVec.ofNat 8 w :: List.replicate (8 * w) 0#8
theorem blackImage_packed (w : Nat) (h1 : 1 ≤ w) (h2 : w ≤ 127) : isPackedImage (blackImage w) = true := by
  have hw : (BitVec.ofNat 8 w).toNat = w := by rw [BitVec.toNat_ofNat]; omega
  simp only [blackImage, isPackedImage, hw, List.length_replicate, h1, h2]
  simp
theorem witness_RenderThenParseRoundTrip :
    isPackedImage (blackImage 1) = true ∧ isPackedImage (blackImage 127) = true ∧
      wrapOk none = true ∧ wrapOk (some 1) = true :=
  ⟨blackImage_packed 1 (by decide) (by decide), blackImage_packed 127 (by decide) (by decide), rfl, rfl⟩
theorem witness_RenderedTextLines : isPackedImage (0#8 :: 1#8 :: List.replicate 8 0#8) = true := by decide
theorem witness_RenderSeparatorCounts : ∀ wrap ∈ [none, some 1, some 32],
    ∃ t, render false wrap (blackImage 1) = .ok t := by
  intro wrap h
  refine ⟨renderText false wrap (blackImage 1), ?_⟩
  have hw : wrapOk wrap = true := by revert wrap; decide
  simp [render, hw, show isPackedImage (blackImage 1) = true by decide]
theorem witness_RenderRefusedOutsideItsDomain :
    ([0#8, 1#8] : List Byte).length < 3 ∧ isPackedImage [0#8, 1#8, 0#8] = false := by decide
/-- One column of eight black pixels. -/
def oneColumn : Image := ⟨1, 8, [List.replicate 8 0]⟩
theorem witness_ToolDeliversThePackedImage :
    oneColumn.wf = true ∧ oneColumn.dimsValid = true ∧ wrapOk (some 32) = true := by decide
theorem witness_ToolReportsInvalidDimensions :
    ∀ img ∈ [(⟨0, 8, []⟩ : Image), ⟨128, 8, []⟩, ⟨1, 7, []⟩, ⟨65537, 8, []⟩], img.dimsValid = false := by decide
theorem witness_NumeralsAreShortestDecimal : ∀ v ∈ [1, 255], v ≠ 0 ∧ v < 256 := by decide

end Sys2Proof.Tests
end

/-! ## State family: the commands and the single host accesses, one equation each -/

namespace Sys2Proof.Machine

/-- Only the encoding of an operation decodes to it (R60, R64). -/
theorem eq_encode_of_decode {b : Byte} {i : Instr} (h : decode b = .ok i) : b = encode i := by
  rw [decode_eq] at h
  split at h
  · cases h; assumption
  · split at h
    · cases h; assumption
    · split at h
      · cases h; assumption
      · cases h

/-- A write to `CMD` of a byte that decodes to an operation is that operation's command. -/
theorem writeReg_eq_commandEvent {v : Nat} {i : Instr} (hv : v < 256)
    (hd : decode (BitVec.ofNat 8 v) = .ok i) : Event.writeReg 0 v = commandEvent i := by
  rw [commandEvent, ← eq_encode_of_decode hd, BitVec.toNat_ofNat, Nat.mod_eq_of_lt hv]

/-- Every command access is well formed (R60, R62). -/
theorem commandEvent_wf (i : Instr) : (commandEvent i).wf = true := by cases i <;> rfl

/-! Writes that load a data register (R12, R13, R14). -/

theorem writeRegister_width {v : Nat} (s : State) (h : v < 2 ^ 16) :
    writeRegister 2 v s = .next (s.setWidth (BitVec.ofNat 16 v)) := if_pos h

theorem writeRegister_height {v : Nat} (s : State) (h : v < 2 ^ 16) :
    writeRegister 3 v s = .next (s.setHeight (BitVec.ofNat 16 v)) := if_pos h

theorem writeRegister_pixelIn {v : Nat} (s : State) (h : v < 2 ^ 24) :
    writeRegister 4 v s = .next (s.setPixelIn (BitVec.ofNat 24 v)) := if_pos h

/-! Reads, and the write of a pixel, that complete (R22, R33, R34). -/

theorem readRegister_answers {n v : Nat} {r : Reg} {s : State} (hr : regOfNumber n = some r)
    (hv : s.readReg? r = some v) : readRegister n s = .next (s.answer (.readReg n) v) := by
  simp only [readRegister, hr, hv]

theorem writePixel_stores {a : Nat} (v : Pixel) (s : State) (h : a < 1016) :
    writePixel a v s = .next (s.storePix a v) := if_pos h

theorem readPixel_answers {a : Nat} {v : Pixel} {s : State} (h : a < 1016) (hv : s.pix.read a = some v) :
    readPixel a s = .next (s.answer (.readPix a) v.toNat) := by
  simp only [readPixel, h, if_true, hv]

theorem readOutByte_answers {k : Nat} {v : Byte} {s : State} (h : k < 1018) (hv : s.out.read k = some v) :
    readOutByte k s = .next (s.answer (.readOut k) v.toNat) := by
  simp only [readOutByte, h, if_true, hv]

/-! Reads of an entry that holds no value (R27). -/

theorem readPixel_unwritten {a : Nat} {s : State} (h : a < 1016) (hv : s.pix.read a = none) :
    readPixel a s = .refused (.unwrittenPix a) := by
  simp only [readPixel, h, if_true, hv]

theorem readOutByte_unwritten {k : Nat} {s : State} (h : k < 1018) (hv : s.out.read k = none) :
    readOutByte k s = .refused (.unwrittenOut k) := by
  simp only [readOutByte, h, if_true, hv]

/-! Accesses to a location that does not exist (R22, R33, R34). -/

theorem regOfNumber_eq_none {n : Nat} (h : 7 ≤ n) : regOfNumber n = none := by
  obtain ⟨k, rfl⟩ := Nat.exists_eq_add_of_le' h
  rfl

theorem writeRegister_noSuch {n : Nat} (v : Nat) (s : State) (h : 7 ≤ n) :
    writeRegister n v s = .refused (.noSuchRegister n) := by
  simp only [writeRegister, regOfNumber_eq_none h]

theorem readRegister_noSuch {n : Nat} (s : State) (h : 7 ≤ n) :
    readRegister n s = .refused (.noSuchRegister n) := by
  simp only [readRegister, regOfNumber_eq_none h]

theorem writePixel_noSuch {a : Nat} (v : Pixel) (s : State) (h : 1016 ≤ a) :
    writePixel a v s = .refused (.noSuchPixEntry a) := if_neg (Nat.not_lt.mpr h)

theorem readPixel_noSuch {a : Nat} (s : State) (h : 1016 ≤ a) :
    readPixel a s = .refused (.noSuchPixEntry a) := if_neg (Nat.not_lt.mpr h)

theorem readOutByte_noSuch {k : Nat} (s : State) (h : 1018 ≤ k) :
    readOutByte k s = .refused (.noSuchOutEntry k) := if_neg (Nat.not_lt.mpr h)

theorem writeOutByte_noSuch {k : Nat} (h : 1018 ≤ k) :
    writeOutByte k = .refused (.noSuchOutEntry k) := if_neg (Nat.not_lt.mpr h)

/-! Accesses for which the host has no right (R18, R22, R34). -/

theorem writeRegister_readOnly {n : Nat} (v : Nat) (s : State) (h : n = 1 ∨ n = 5 ∨ n = 6) :
    writeRegister n v s = .refused (.writeReadOnly n) := by
  obtain rfl | rfl | rfl := h <;> rfl

theorem readRegister_cmd (s : State) : readRegister 0 s = .refused .readOfCmd := rfl

theorem writeOutByte_noRight {k : Nat} (h : k < 1018) :
    writeOutByte k = .refused (.hostWriteOut k) := if_pos h

/-! Writes of a number that does not fit the register (R141). -/

theorem writeCmd_tooWide {v : Nat} (s : State) (h : 256 ≤ v) :
    writeCmd v s = .refused (.valueTooWide 0 v) := if_neg (Nat.not_lt.mpr h)

theorem writeRegister_dim_tooWide {n v : Nat} (s : State) (hn : n = 2 ∨ n = 3) (h : 2 ^ 16 ≤ v) :
    writeRegister n v s = .refused (.valueTooWide n v) := by
  obtain rfl | rfl := hn <;> exact if_neg (Nat.not_lt.mpr h)

theorem writeRegister_pixelIn_tooWide {v : Nat} (s : State) (h : 2 ^ 24 ≤ v) :
    writeRegister 4 v s = .refused (.valueTooWide 4 v) := if_neg (Nat.not_lt.mpr h)

/-! The arms of `exec`, and what `ENCODE` reads and writes. -/

theorem exec_validate (s : State) : exec .validate s =
    .next { s with statusCode := if dimsOk s.width s.height then 0#2 else 1#2 } := execValidate_eq s

theorem exec_packPixel (s : State) : exec .packPixel s = .next (s.setPacked (packOf s.pixelIn)) := rfl

theorem exec_encode (s : State) : exec .encode s = execEncode s := rfl

/-- The walk reads nothing but `PIX` and the bytes of `OUT` it does not overwrite. -/
theorem encodeWalk_congr {l : List (Nat × Nat)} {k : Nat} {s t u : State} (hpix : s.pix = t.pix)
    (hout : s.out = t.out) (h : encodeWalk l k s = .next u) :
    encodeWalk l k t = .next { t with out := u.out } := by
  induction l generalizing k s t with
  | nil =>
    cases h
    rw [hout]
    rfl
  | cons x rest ih =>
    obtain ⟨i, j⟩ := x
    cases hp : s.pix.read (pixAddr i j) with
    | none =>
      simp only [encodeWalk, hp] at h
      cases h
    | some p =>
      simp only [encodeWalk, hp] at h
      rw [hpix] at hp
      simp only [encodeWalk, hp]
      exact ih (s := s.storeOut k (packOf p)) (t := t.storeOut k (packOf p)) hpix (by simp [hout]) h

/-- `ENCODE` reads nothing but the dimensions, `PIX` and `OUT`: a state with the same four gets the same
status, length and bytes (R85, R94 item 6). -/
theorem execEncode_congr {s t u : State} (hw : s.width = t.width) (hh : s.height = t.height)
    (hpix : s.pix = t.pix) (hout : s.out = t.out) (h : execEncode s = .next u) :
    execEncode t = .next { t with statusCode := u.statusCode, outLen := u.outLen, out := u.out } := by
  cases hd : dimsOk t.width t.height with
  | false =>
    rw [execEncode_invalid (by rw [hw, hh, hd])] at h
    cases h
    rw [execEncode_invalid hd, hout]
  | true =>
    cases hwalk : encodeWalk (walkOrder t.width.toNat) 2 (s.storeHeader t.width) with
    | next v =>
      have hwalk' := encodeWalk_congr (s := s.storeHeader t.width) (t := t.storeHeader t.width) hpix
        (by simp [State.storeHeader, hout]) hwalk
      simp only [execEncode, hw, hh, hd, if_true, hwalk] at h
      cases h
      simp only [execEncode, hd, if_true, hwalk']
      rfl
    | fault f => exact nomatch f
    | refused r =>
      simp only [execEncode, hw, hh, hd, if_true, hwalk] at h
      cases h

/-- `ENCODE` writes `STATUS`, `OUT_LEN` and `OUT` only. -/
theorem execEncode_next_fields {s t : State} (h : execEncode s = .next t) :
    t = { s with statusCode := t.statusCode, outLen := t.outLen, out := t.out } :=
  Host.Outcome.next.inj (h.symm.trans (execEncode_congr rfl rfl rfl rfl h))

end Sys2Proof.Machine

/-! ## State family: the canonical form of a memory determines it -/

namespace Sys2Proof.Machine.Memory

variable {w : Nat}

theorem wfFrom_cons {size lo a : Nat} {v : BitVec w} {m : Memory w} :
    Memory.wfFrom size lo ((a, v) :: m) = true ↔ (lo ≤ a ∧ a < size) ∧ m.wfFrom size (a + 1) = true := by
  simp [Memory.wfFrom]

theorem read_cons_self (a : Nat) (v : BitVec w) (m : Memory w) :
    Memory.read ((a, v) :: m) a = some v := if_pos rfl

theorem read_cons_of_ne {a b : Nat} (v : BitVec w) (m : Memory w) (h : b ≠ a) :
    Memory.read ((a, v) :: m) b = m.read b := if_neg h

/-- The first address of a canonical memory is not below that of one that reads alike: there the other
would read as unwritten. -/
theorem first_address_le {size lo a b : Nat} {v u : BitVec w} {m n : Memory w}
    (ha : a < size) (hn : Memory.wfFrom size lo ((b, u) :: n) = true)
    (h : ∀ c, c < size → Memory.read ((a, v) :: m) c = Memory.read ((b, u) :: n) c) : b ≤ a := by
  by_contra hlt
  obtain ⟨⟨-, hb⟩, hn⟩ := wfFrom_cons.mp hn
  have hb' : Memory.wfFrom size b ((b, u) :: n) = true := wfFrom_cons.mpr ⟨⟨le_rfl, hb⟩, hn⟩
  have hnone := h a ha
  rw [read_cons_self, read_below hb' (by omega)] at hnone
  cases hnone

/-- Two memories in canonical form above one bound that read alike are the same list. -/
theorem eq_of_read_eq {size lo : Nat} {m n : Memory w} (hm : m.wfFrom size lo = true)
    (hn : n.wfFrom size lo = true) (h : ∀ c, c < size → m.read c = n.read c) : m = n := by
  induction m generalizing lo n with
  | nil =>
    cases n with
    | nil => rfl
    | cons y n =>
      obtain ⟨b, u⟩ := y
      obtain ⟨⟨-, hb⟩, -⟩ := wfFrom_cons.mp hn
      have := h b hb
      rw [read_cons_self, read_nil] at this
      cases this
  | cons x m ih =>
    obtain ⟨a, v⟩ := x
    obtain ⟨⟨-, ha⟩, hm'⟩ := wfFrom_cons.mp hm
    cases n with
    | nil =>
      have := h a ha
      rw [read_cons_self, read_nil] at this
      cases this
    | cons y n =>
      obtain ⟨b, u⟩ := y
      obtain ⟨⟨-, hb⟩, hn'⟩ := wfFrom_cons.mp hn
      obtain rfl : a = b := Nat.le_antisymm
        (first_address_le hb hm fun c hc => (h c hc).symm) (first_address_le ha hn h)
      have hv := h a ha
      rw [read_cons_self, read_cons_self] at hv
      cases hv
      have htail : ∀ c, c < size → Memory.read m c = Memory.read n c := by
        intro c hc
        by_cases hca : c = a
        · rw [read_below hm' (by omega), read_below hn' (by omega)]
        · have := h c hc
          rwa [read_cons_of_ne _ _ hca, read_cons_of_ne _ _ hca] at this
      rw [ih hm' hn' htail]

end Sys2Proof.Machine.Memory

/-! ## State family: the invariant -/

namespace Sys2Proof.Machine

theorem reset_inv : State.reset.Inv where
  pixWf := rfl
  outWf := rfl
  status := .inl rfl
  output := .inl rfl

/-- The invariant speaks of `STATUS`, `OUT_LEN` and the two memories only. -/
theorem State.Inv.congr {s t : State} (hs : s.Inv) (hstatus : t.statusCode = s.statusCode)
    (hlen : t.outLen = s.outLen) (hpix : t.pix = s.pix) (hout : t.out = s.out) : t.Inv where
  pixWf := by rw [hpix]; exact hs.pixWf
  outWf := by rw [hout]; exact hs.outWf
  status := by simpa only [State.StatusLegal, State.status, hstatus] using hs.status
  output := by simpa only [State.OutputLegal, hlen, hout] using hs.output

/-- A legal status, in terms of the two bits that have storage. -/
theorem statusLegal_iff {s : State} : s.StatusLegal ↔ s.statusCode = 0#2 ∨ s.statusCode = 1#2 :=
  or_congr (status_eq_iff s 0#2) (status_eq_iff s 1#2)

theorem storePix_keeps_inv {s : State} {a : Nat} (v : Pixel) (hs : s.Inv) (ha : a < 1016) :
    (s.storePix a v).Inv :=
  { hs with pixWf := Memory.wf_write v hs.pixWf ha }

/-- A length and an `OUT` that hold the PackedImage of a valid width are a legal output. -/
theorem outputLegal_of_packedImage {s : State} {w : Nat} (hlo : 1 ≤ w) (hhi : w ≤ 127)
    (hlen : s.outLen = BitVec.ofNat 16 (2 + 8 * w)) (h0 : s.out.read 0 = some 0#8)
    (h1 : s.out.read 1 = some (BitVec.ofNat 8 w))
    (hpix : ∀ a, a < 8 * w → (s.out.read (2 + a)).isSome) : s.OutputLegal := by
  refine .inr ⟨w, hlo, hhi, ?_, h0, h1, ?_⟩
  · rw [hlen, BitVec.toNat_ofNat, Nat.mod_eq_of_lt (by omega)]
  · intro k hk
    match k with
    | 0 => simp [h0]
    | 1 => simp [h1]
    | a + 2 => rw [Nat.add_comm]; exact hpix a (by omega)

theorem execEncode_keeps_inv {s t : State} (hs : s.Inv) (h : execEncode s = .next t) : t.Inv := by
  rcases execEncode_cases s with ⟨-, he⟩ | ⟨hd, hg, -⟩ | ⟨-, a, -, -, he⟩
  · rw [he] at h
    cases h
    exact { hs with status := statusLegal_iff.mpr (.inr rfl), output := .inl rfl }
  · obtain ⟨hlo, hhi, -⟩ := dimsOk_eq_true.mp hd
    obtain ⟨m, he, h0, h1, hpix, -, hwf⟩ := execEncode_valid hd hg
    rw [he] at h
    cases h
    exact { hs with
      outWf := hwf 1018 hs.outWf (by omega)
      status := statusLegal_iff.mpr (.inl rfl)
      output := outputLegal_of_packedImage hlo hhi rfl h0 h1 fun a ha => by
        obtain ⟨p, -, hp⟩ := hpix a ha
        simp [hp] }
  · rw [he] at h
    cases h

theorem exec_keeps_inv {i : Instr} {s t : State} (hs : s.Inv) (h : exec i s = .next t) : t.Inv := by
  cases i with
  | validate =>
    rw [exec_validate] at h
    cases h
    refine { hs with status := statusLegal_iff.mpr ?_ }
    cases dimsOk s.width s.height
    · exact .inr rfl
    · exact .inl rfl
  | packPixel =>
    rw [exec_packPixel] at h
    cases h
    exact hs.congr rfl rfl rfl rfl
  | encode => exact execEncode_keeps_inv hs h

theorem handle_keeps_inv {e : Event} {s t : State} (hs : s.Inv) (h : handle e s = .next t) : t.Inv := by
  rcases handle_next h with ⟨v, i, -, -, -, he⟩ | ⟨v, -, -, rfl⟩ | ⟨v, -, -, rfl⟩ | ⟨v, -, -, rfl⟩ |
    ⟨a, v, -, ha, rfl⟩ | ⟨n, r, v, -, -, -, rfl⟩ | ⟨a, v, -, -, -, rfl⟩ | ⟨k, v, -, -, -, rfl⟩ | ⟨-, rfl⟩
  · exact exec_keeps_inv hs he
  · exact hs.congr rfl rfl rfl rfl
  · exact hs.congr rfl rfl rfl rfl
  · exact hs.congr rfl rfl rfl rfl
  · exact storePix_keeps_inv v hs ha
  · exact hs.congr rfl rfl rfl rfl
  · exact hs.congr rfl rfl rfl rfl
  · exact hs.congr rfl rfl rfl rfl
  · exact reset_inv.congr rfl rfl rfl rfl

/-- Settles O27: each way a step can complete keeps the invariant; only `ENCODE` and a pixel write need more
than that the four fields it speaks of are untouched or at their reset values. -/
theorem stepKeepsTheInvariant : Obligations.StepKeepsTheInvariant := by
  unfold Obligations.StepKeepsTheInvariant
  intro s t hs h
  obtain ⟨-, rfl⟩ | ⟨e, rest, -, hh⟩ := step_next h
  · exact hs
  · have hs' : State.Inv { s with pending := rest } := hs.congr rfl rfl rfl rfl
    exact handle_keeps_inv hs' hh

end Sys2Proof.Machine

/-! ## State family: what an unwritten register holds cannot be seen -/

namespace Sys2Proof.Machine

/-- An operation whose operands hold values cannot tell apart two states that agree on what is held. -/
theorem exec_agree {i : Instr} {s₁ s₂ t₁ : State} (ha : s₁.AgreeOnHeld s₂)
    (hheld : Instr.operandsHeld i s₁.held = true) (h : exec i s₁ = .next t₁) :
    ∃ t₂, exec i s₂ = .next t₂ ∧ t₁.AgreeOnHeld t₂ := by
  cases i with
  | validate =>
    obtain ⟨hw, hh⟩ := Bool.and_eq_true_iff.mp hheld
    rw [exec_validate] at h
    cases h
    exact ⟨_, exec_validate s₂, { ha with statusCode := by rw [ha.width hw, ha.height hh] }⟩
  | packPixel =>
    rw [exec_packPixel] at h
    cases h
    exact ⟨_, exec_packPixel s₂, { ha with
      held := by simp [ha.held]
      packed := fun _ => by simp [ha.pixelIn hheld] }⟩
  | encode =>
    obtain ⟨hw, hh⟩ := Bool.and_eq_true_iff.mp hheld
    refine ⟨_, execEncode_congr (ha.width hw) (ha.height hh) ha.pix ha.out h, ?_⟩
    rw [execEncode_next_fields h]
    exact { ha with statusCode := rfl, outLen := rfl, out := rfl }

/-- A register that holds a value reads the same in both states. -/
theorem readReg?_agree {n : Nat} {r : Reg} {s₁ s₂ : State} (ha : s₁.AgreeOnHeld s₂)
    (hheld : readHeld n s₁.held = true) (hr : regOfNumber n = some r) :
    s₁.readReg? r = s₂.readReg? r := by
  match n, hr with
  | 0, rfl => rfl
  | 1, rfl => simp only [State.readReg?, State.status, ha.statusCode]
  | 2, rfl => simp only [State.readReg?, ha.width hheld]
  | 3, rfl => simp only [State.readReg?, ha.height hheld]
  | 4, rfl => simp only [State.readReg?, ha.pixelIn hheld]
  | 5, rfl => simp only [State.readReg?, ha.packed hheld]
  | 6, rfl => simp only [State.readReg?, ha.outLen]

theorem answer_agree {s₁ s₂ : State} (e : Event) (v : Nat) (ha : s₁.AgreeOnHeld s₂) :
    (s₁.answer e v).AgreeOnHeld (s₂.answer e v) :=
  { ha with answers := by simp [ha.answers] }

/-- After reset nothing is left of what the registers held before. -/
theorem resetBlock_agree {s₁ s₂ : State} (ha : s₁.AgreeOnHeld s₂) :
    s₁.resetBlock.AgreeOnHeld s₂.resetBlock :=
  { ha with
    statusCode := rfl, outLen := rfl, pix := rfl, out := rfl, held := rfl, width := fun _ => rfl,
    height := fun _ => rfl, pixelIn := fun _ => rfl, packed := fun _ => rfl }

theorem readsHeld_command {v : Nat} {i : Instr} (h : Held) (hd : decode (BitVec.ofNat 8 v) = .ok i) :
    Event.readsHeld (.writeReg 0 v) h = Instr.operandsHeld i h := by
  simp only [Event.readsHeld, hd]

/-- An event that reads no unwritten register completes alike from two states that agree on what is
held, and leaves two such states. -/
theorem handle_agree {e : Event} {s₁ s₂ t₁ : State} (ha : s₁.AgreeOnHeld s₂)
    (hheld : Event.readsHeld e s₁.held = true) (h : handle e s₁ = .next t₁) :
    ∃ t₂, handle e s₂ = .next t₂ ∧ t₁.AgreeOnHeld t₂ := by
  rcases handle_next h with ⟨v, i, rfl, hv, hd, he⟩ | ⟨v, rfl, hv, rfl⟩ | ⟨v, rfl, hv, rfl⟩ |
    ⟨v, rfl, hv, rfl⟩ | ⟨a, v, rfl, hlt, rfl⟩ | ⟨n, r, v, rfl, hr, hv, rfl⟩ | ⟨a, v, rfl, hlt, hv, rfl⟩ |
    ⟨k, v, rfl, hlt, hv, rfl⟩ | ⟨rfl, rfl⟩
  · rw [readsHeld_command _ hd] at hheld
    obtain ⟨t₂, he₂, ht⟩ := exec_agree ha hheld he
    exact ⟨t₂, (writeCmd_decoded s₂ hv hd).trans he₂, ht⟩
  · exact ⟨_, writeRegister_width s₂ hv,
      { ha with held := by simp [ha.held], width := fun _ => rfl }⟩
  · exact ⟨_, writeRegister_height s₂ hv,
      { ha with held := by simp [ha.held], height := fun _ => rfl }⟩
  · exact ⟨_, writeRegister_pixelIn s₂ hv,
      { ha with held := by simp [ha.held], pixelIn := fun _ => rfl }⟩
  · exact ⟨_, writePixel_stores v s₂ hlt, { ha with pix := by simp [ha.pix] }⟩
  · rw [readReg?_agree ha hheld hr] at hv
    exact ⟨_, readRegister_answers hr hv, answer_agree _ v ha⟩
  · rw [ha.pix] at hv
    exact ⟨_, readPixel_answers hlt hv, answer_agree _ v.toNat ha⟩
  · rw [ha.out] at hv
    exact ⟨_, readOutByte_answers hlt hv, answer_agree _ v.toNat ha⟩
  · exact ⟨_, rfl, resetBlock_agree ha⟩

/-- Settles O28: taking the event off the list keeps the agreement, and handling it keeps it too. -/
theorem unwrittenRegistersCannotBeSeen : Obligations.UnwrittenRegistersCannotBeSeen := by
  unfold Obligations.UnwrittenRegistersCannotBeSeen
  intro s₁ s₂ t₁ ha hheld h
  obtain ⟨hidle, rfl⟩ | ⟨e, rest, hp, hh⟩ := step_next h
  · exact ⟨s₂, step_idle (ha.pending ▸ hidle), ha⟩
  · rw [step_event (ha.pending ▸ hp)]
    have ha' : State.AgreeOnHeld { s₁ with pending := rest } { s₂ with pending := rest } :=
      { ha with pending := rfl }
    exact handle_agree ha' (hheld e rest hp) hh

end Sys2Proof.Machine

/-! ## State family: the operations, the writers of each field, and the host's accesses -/

namespace Sys2Proof.Machine

/-- Settles O18: position `a` of the walk is address `a` of `PIX`, so the first unwritten address is the
first unwritten pixel the walk meets. -/
theorem encodeRefusesAnUnwrittenPixel : Obligations.EncodeRefusesAnUnwrittenPixel := by
  unfold Obligations.EncodeRefusesAnUnwrittenPixel
  intro s a hd ha hnone hbefore
  have haddr : ∀ b, pixAddr (b / 8) (b % 8) = b := fun b => Nat.div_add_mod b 8
  have hwalk := encodeWalk_refused (k := 2) (s := s.storeHeader s.width) (walkOrder_get _ a ha)
    (by rw [haddr]; exact hnone)
    (by
      intro b y hb hy
      rw [walkOrder_get _ b (by omega)] at hy
      cases hy
      rw [haddr]
      exact hbefore b hb)
  rw [haddr] at hwalk
  simp only [exec_encode, execEncode, dimsOk_eq_true.mpr hd, if_true, hwalk]

/-- Settles O30: the fields an operation can change are none of these. -/
theorem operationsNeverWriteTheirInputs : Obligations.OperationsNeverWriteTheirInputs := by
  unfold Obligations.OperationsNeverWriteTheirInputs
  intro i s t h
  rw [exec_next_fields h]
  exact ⟨rfl, rfl, rfl, rfl, rfl, rfl⟩

/-- Which operation can change which field. -/
theorem exec_writers {i : Instr} {s t : State} (h : exec i s = .next t) :
    (t.out ≠ s.out ∨ t.outLen ≠ s.outLen → i = .encode) ∧
    (t.packed ≠ s.packed → i = .packPixel) ∧
    (t.status ≠ s.status → i = .validate ∨ i = .encode) := by
  cases i with
  | validate =>
    rw [exec_validate] at h
    cases h
    simp
  | packPixel =>
    rw [exec_packPixel] at h
    cases h
    simp [State.status]
  | encode =>
    rw [execEncode_next_fields h]
    simp

/-- Which event can change which field. -/
theorem handle_writers {e : Event} {s t : State} (h : handle e s = .next t) :
    (t.out ≠ s.out ∨ t.outLen ≠ s.outLen → e = commandEvent .encode ∨ e = .reset) ∧
    (t.packed ≠ s.packed → e = commandEvent .packPixel ∨ e = .reset) ∧
    (t.status ≠ s.status → e = commandEvent .validate ∨ e = commandEvent .encode ∨ e = .reset) ∧
    (t.width ≠ s.width → ∃ v, e = .writeReg 2 v ∨ e = .reset) ∧
    (t.height ≠ s.height → ∃ v, e = .writeReg 3 v ∨ e = .reset) ∧
    (t.pixelIn ≠ s.pixelIn → ∃ v, e = .writeReg 4 v ∨ e = .reset) ∧
    (t.pix ≠ s.pix → ∃ a v, e = .writePix a v ∨ e = .reset) := by
  rcases handle_next h with ⟨v, i, rfl, hv, hd, he⟩ | ⟨v, rfl, -, rfl⟩ | ⟨v, rfl, -, rfl⟩ |
    ⟨v, rfl, -, rfl⟩ | ⟨a, v, rfl, -, rfl⟩ | ⟨n, r, v, rfl, -, -, rfl⟩ | ⟨a, v, rfl, -, -, rfl⟩ |
    ⟨k, v, rfl, -, -, rfl⟩ | ⟨rfl, rfl⟩
  case inl =>
    obtain ⟨hout, hpacked, hstatus⟩ := exec_writers he
    obtain ⟨hw, hh, hp, hpix, -, -⟩ := operationsNeverWriteTheirInputs i s t he
    rw [writeReg_eq_commandEvent hv hd]
    refine ⟨fun hc => .inl (by rw [hout hc]), fun hc => .inl (by rw [hpacked hc]), fun hc => ?_,
      absurd hw, absurd hh, absurd hp, absurd hpix⟩
    obtain rfl | rfl := hstatus hc
    · exact .inl rfl
    · exact .inr (.inl rfl)
  all_goals simp [State.status]

/-- Settles O32: the event a completed step has handled is one of the writers of whatever changed. -/
theorem stateChangesOnlyThroughItsWriters : Obligations.StateChangesOnlyThroughItsWriters := by
  unfold Obligations.StateChangesOnlyThroughItsWriters
  intro s t h
  obtain ⟨-, rfl⟩ | ⟨e, rest, hp, hh⟩ := step_next h
  · simp
  · have hev : ∀ e', e = e' → s.pending = e' :: rest := fun e' he => he ▸ hp
    obtain ⟨hout, hpacked, hstatus, hw, hht, hpx, hpix⟩ := handle_writers hh
    exact ⟨fun hc => ⟨rest, (hout hc).imp (hev _) (hev _)⟩,
      fun hc => ⟨rest, (hpacked hc).imp (hev _) (hev _)⟩,
      fun hc => ⟨rest, (hstatus hc).imp (hev _) (Or.imp (hev _) (hev _))⟩,
      fun hc => (hw hc).imp fun _ h => ⟨rest, h.imp (hev _) (hev _)⟩,
      fun hc => (hht hc).imp fun _ h => ⟨rest, h.imp (hev _) (hev _)⟩,
      fun hc => (hpx hc).imp fun _ h => ⟨rest, h.imp (hev _) (hev _)⟩,
      fun hc => (hpix hc).imp fun _ h => h.imp fun _ h => ⟨rest, h.imp (hev _) (hev _)⟩⟩

/-- An event that completes is well formed. -/
theorem wf_of_handle_next {e : Event} {s t : State} (h : handle e s = .next t) : e.wf = true := by
  rcases handle_next h with ⟨v, i, rfl, hv, hd, -⟩ | ⟨v, rfl, hv, -⟩ | ⟨v, rfl, hv, -⟩ |
    ⟨v, rfl, hv, -⟩ | ⟨a, v, rfl, ha, -⟩ | ⟨n, r, v, rfl, hr, hv, -⟩ | ⟨a, v, rfl, ha, -, -⟩ |
    ⟨k, v, rfl, hk, -, -⟩ | ⟨rfl, -⟩
  · rw [writeReg_eq_commandEvent hv hd]
    exact commandEvent_wf i
  · exact decide_eq_true hv
  · exact decide_eq_true hv
  · exact decide_eq_true hv
  · exact decide_eq_true ha
  · have hn : n ≠ 0 := by
      rintro rfl
      cases hr
      cases hv
    have h6 : ¬ 7 ≤ n := fun h7 => by simp [regOfNumber_eq_none h7] at hr
    simp only [Event.wf, Bool.and_eq_true, decide_eq_true_eq]
    omega
  · exact decide_eq_true ha
  · exact decide_eq_true hk
  · rfl

/-- Settles O39: what completes is well formed. -/
theorem illFormedAccessNeverCompletes : Obligations.IllFormedAccessNeverCompletes := by
  unfold Obligations.IllFormedAccessNeverCompletes
  intro s t e rest hp hwf h
  rw [step_event hp] at h
  exact Bool.false_ne_true (hwf.symm.trans (wf_of_handle_next h))

/-- Settles O43, by induction on the lists, above any lower bound for the addresses. -/
theorem canonicalMemoriesAreEqualData : Obligations.CanonicalMemoriesAreEqualData := by
  unfold Obligations.CanonicalMemoriesAreEqualData
  intro w size m₁ m₂ h₁ h₂ h
  exact Memory.eq_of_read_eq h₁ h₂ h

/-- Settles O3: the event is a write to register 0, which is a command. -/
theorem stepRunsDecodedCommand : Obligations.StepRunsDecodedCommand := by
  unfold Obligations.StepRunsDecodedCommand
  intro s v i rest hp hv hd
  exact (step_event hp).trans (writeCmd_decoded _ hv hd)

/-- Settles O24, field by field. -/
theorem resetValues : Obligations.ResetValues := by
  unfold Obligations.ResetValues
  exact ⟨rfl, rfl, Memory.read_nil, Memory.read_nil, rfl⟩

/-- Settles O26: both memories are empty, and `STATUS` and `OUT_LEN` are 0. -/
theorem resetMeetsTheInvariant : Obligations.ResetMeetsTheInvariant := reset_inv

/-- The two low bits of a byte, widened again, are the byte under the mask 0x03. -/
theorem low_bits_eq_and (v : Byte) : (0#6 ++ v.setWidth 2 : BitVec 8) = v &&& 0x03#8 := by
  apply BitVec.eq_of_toNat_eq
  have : v.toNat &&& 3 = v.toNat % 4 := Nat.and_two_pow_sub_one_eq_mod _ 2
  rw [BitVec.toNat_append]
  simp [this]

/-- Settles O29: the six high bits have no storage, so a write keeps the low two. -/
theorem statusHighBitsReadZero : Obligations.StatusHighBitsReadZero := by
  unfold Obligations.StatusHighBitsReadZero
  intro s v
  exact ⟨status_high_bits s, low_bits_eq_and v⟩

/-- Settles O33: each of the three writes fits its register. -/
theorem hostWriteLoadsTheRegister : Obligations.HostWriteLoadsTheRegister := by
  unfold Obligations.HostWriteLoadsTheRegister
  intro s v rest
  exact ⟨fun hp hv => (step_event hp).trans (writeRegister_width _ hv),
    fun hp hv => (step_event hp).trans (writeRegister_height _ hv),
    fun hp hv => (step_event hp).trans (writeRegister_pixelIn _ hv)⟩

/-- The registers 1 to 6 are readable, and read as R22 lists them. -/
theorem readable_register {n : Nat} (s : State) (h1 : 1 ≤ n) (h6 : n ≤ 6) :
    ∃ r, regOfNumber n = some r ∧ s.readReg? r = some
      (if n = 1 then s.status.toNat else if n = 2 then s.width.toNat else if n = 3 then s.height.toNat
        else if n = 4 then s.pixelIn.toNat else if n = 5 then s.packed.toNat else s.outLen.toNat) := by
  interval_cases n <;> exact ⟨_, rfl, rfl⟩

/-- Settles O34: the number names a readable register, and its read answers. -/
theorem hostReadReturnsTheRegister : Obligations.HostReadReturnsTheRegister := by
  unfold Obligations.HostReadReturnsTheRegister
  intro s n rest hp h1 h6
  obtain ⟨r, hr, hv⟩ := readable_register { s with pending := rest } h1 h6
  exact (step_event hp).trans (readRegister_answers hr hv)

/-- Settles O38: the location exists, and nothing is listed there. -/
theorem unwrittenEntryReadIsRefused : Obligations.UnwrittenEntryReadIsRefused := by
  unfold Obligations.UnwrittenEntryReadIsRefused
  intro s a rest
  exact ⟨fun hp ha hv => (step_event hp).trans (readPixel_unwritten ha hv),
    fun hp ha hv => (step_event hp).trans (readOutByte_unwritten ha hv)⟩

/-- Settles O41: one refusal lemma for each ground. -/
theorem illegalAccessesStopByName : Obligations.IllegalAccessesStopByName := by
  unfold Obligations.IllegalAccessesStopByName
  intro s n v b p rest
  exact ⟨fun hp hn => (step_event hp).trans (writeRegister_noSuch v _ hn),
    fun hp hn => (step_event hp).trans (readRegister_noSuch _ hn),
    fun hp hn => (step_event hp).trans (writePixel_noSuch p _ hn),
    fun hp hn => (step_event hp).trans (readPixel_noSuch _ hn),
    fun hp hn => (step_event hp).trans (readOutByte_noSuch _ hn),
    fun hp hn => (step_event hp).trans (writeRegister_readOnly v _ hn),
    fun hp => (step_event hp).trans (readRegister_cmd { s with pending := rest }),
    fun hp hn => (step_event hp).trans (writeOutByte_noRight hn),
    fun hp hn => (step_event hp).trans (writeOutByte_noSuch hn),
    fun hp hv => (step_event hp).trans (writeCmd_tooWide _ hv),
    fun hp hn hv => (step_event hp).trans (writeRegister_dim_tooWide _ hn hv),
    fun hp hv => (step_event hp).trans (writeRegister_pixelIn_tooWide _ hv)⟩

end Sys2Proof.Machine

/-! ## Memory family: single accesses to the memories, and completion of every well-formed access -/

namespace Sys2Proof.Machine

/-- Settles O35: the step stores into `PIX`, and a read after a write sees the written entry only. -/
theorem hostPixelWriteThenRead : Obligations.HostPixelWriteThenRead := by
  unfold Obligations.HostPixelWriteThenRead
  intro s a v rest hp ha
  exact ⟨_, (step_event hp).trans (writePixel_stores v _ ha), rfl, fun b => Memory.read_write s.pix a b v⟩

/-- Settles O36: the entry exists and holds a value, so the read answers. -/
theorem hostMemoryReadsReturnTheEntry : Obligations.HostMemoryReadsReturnTheEntry := by
  unfold Obligations.HostMemoryReadsReturnTheEntry
  intro s a rest
  exact ⟨fun v hp ha hv => (step_event hp).trans (readPixel_answers ha hv),
    fun v hp ha hv => (step_event hp).trans (readOutByte_answers ha hv)⟩

/-- Every operation completes, `ENCODE` if no pixel of a valid grid is unwritten (R87, R93). -/
theorem exec_completes {i : Instr} {s : State}
    (hgrid : i = .encode → s.DimsValid → s.GridLoaded s.width.toNat) : ∃ t, exec i s = .next t := by
  cases i with
  | validate => exact ⟨_, exec_validate s⟩
  | packPixel => exact ⟨_, exec_packPixel s⟩
  | encode =>
    rw [exec_encode]
    obtain ⟨-, he⟩ | ⟨-, -, m, he⟩ | ⟨hd, a, ha, hnone, -⟩ := execEncode_cases s
    · exact ⟨_, he⟩
    · exact ⟨_, he⟩
    · have hsome := hgrid rfl (dimsOk_eq_true.mp hd) a ha
      rw [hnone] at hsome
      cases hsome

/-- A command access runs its operation (R18, R60). -/
theorem handle_commandEvent (i : Instr) (s : State) : handle (commandEvent i) s = exec i s := by
  cases i <;> rfl

/-- A well-formed register write is a command, or fits one of the three data registers (R22, R60, R141). -/
theorem writeReg_wf_cases {n v : Nat} (h : (Event.writeReg n v).wf = true) :
    (∃ i, Event.writeReg n v = commandEvent i) ∨ (n = 2 ∧ v < 2 ^ 16) ∨ (n = 3 ∧ v < 2 ^ 16) ∨
      (n = 4 ∧ v < 2 ^ 24) := by
  match n, h with
  | 0, h =>
    match v, of_decide_eq_true h with
    | 0, _ => exact .inl ⟨.validate, rfl⟩
    | 1, _ => exact .inl ⟨.packPixel, rfl⟩
    | 2, _ => exact .inl ⟨.encode, rfl⟩
  | 1, h => cases h
  | 2, h => exact .inr (.inl ⟨rfl, of_decide_eq_true h⟩)
  | 3, h => exact .inr (.inr (.inl ⟨rfl, of_decide_eq_true h⟩))
  | 4, h => exact .inr (.inr (.inr ⟨rfl, of_decide_eq_true h⟩))
  | _ + 5, h => cases h

/-- A well-formed event is handled to completion where the entries it reads hold values (R40, R147). -/
theorem handle_completes {e : Event} {s : State} (hwf : e.wf = true)
    (hpix : ∀ a, e = .readPix a → (s.pix.read a).isSome)
    (hout : ∀ k, e = .readOut k → (s.out.read k).isSome)
    (hgrid : e = commandEvent .encode → s.DimsValid → s.GridLoaded s.width.toNat) :
    ∃ t, handle e s = .next t := by
  cases e with
  | writeReg n v =>
    obtain ⟨i, hi⟩ | ⟨rfl, hv⟩ | ⟨rfl, hv⟩ | ⟨rfl, hv⟩ := writeReg_wf_cases hwf
    · rw [hi, handle_commandEvent]
      exact exec_completes fun he => hgrid (he ▸ hi)
    · exact ⟨_, writeRegister_width s hv⟩
    · exact ⟨_, writeRegister_height s hv⟩
    · exact ⟨_, writeRegister_pixelIn s hv⟩
  | readReg n =>
    obtain ⟨h1, h6⟩ := Bool.and_eq_true_iff.mp hwf
    obtain ⟨r, hr, hv⟩ := readable_register s (of_decide_eq_true h1) (of_decide_eq_true h6)
    exact ⟨_, readRegister_answers hr hv⟩
  | writePix a v => exact ⟨_, writePixel_stores v s (of_decide_eq_true hwf)⟩
  | readPix a =>
    obtain ⟨v, hv⟩ := Option.isSome_iff_exists.mp (hpix a rfl)
    exact ⟨_, readPixel_answers (of_decide_eq_true hwf) hv⟩
  | writeOut k v => cases hwf
  | readOut k =>
    obtain ⟨v, hv⟩ := Option.isSome_iff_exists.mp (hout k rfl)
    exact ⟨_, readOutByte_answers (of_decide_eq_true hwf) hv⟩
  | reset => exact ⟨_, rfl⟩

/-- Settles O40: the step takes the event off the list, and handling it completes and leaves the list alone. -/
theorem wellFormedAccessCompletes : Obligations.WellFormedAccessCompletes := by
  unfold Obligations.WellFormedAccessCompletes
  intro s e rest hp hwf hpix hout hgrid
  obtain ⟨t, ht⟩ := handle_completes (s := { s with pending := rest }) hwf hpix hout hgrid
  exact ⟨t, (step_event hp).trans ht, fun _ => handle_pending ht⟩

end Sys2Proof.Machine

/-! ## Encoding family: the decoder on each command byte, and the channels of a packed byte -/

namespace Sys2Proof.Machine

/-- Every byte from 3 up is reserved (R62). -/
theorem decode_reserved {b : Byte} (h : 3 ≤ b.toNat) : decode b = .error (.reserved b) := by
  have hne : ∀ c : Byte, c.toNat < 3 → b ≠ c := by
    rintro c hc rfl
    exact absurd hc (Nat.not_lt.mpr h)
  rw [decode_eq, if_neg (hne 0#8 (by decide)), if_neg (hne 1#8 (by decide)), if_neg (hne 2#8 (by decide))]

/-- The encoding of an operation decodes to it (R60). -/
@[simp] theorem decode_encode (i : Instr) : decode (encode i) = .ok i := by cases i <;> rfl

/-- Every operation is well formed: none has an operand (R61). -/
@[simp] theorem instr_wf (i : Instr) : i.wf = true := by cases i <;> rfl

/-- A reserved command value is refused by name (R62). -/
theorem writeCmd_reserved {v : Nat} (s : State) (h3 : 3 ≤ v) (hv : v < 256) :
    writeCmd v s = .refused (.reservedCommand v) := by
  have hb : 3 ≤ (BitVec.ofNat 8 v).toNat := by rwa [BitVec.toNat_ofNat, Nat.mod_eq_of_lt hv]
  simp only [writeCmd, hv, if_true, decode_reserved hb]

/-! What one channel alone packs to (R76). -/

theorem pack_red (r : Byte) : pack r 0#8 0#8 = r &&& 0xE0#8 := by simp [pack]

theorem pack_green (g : Byte) : pack 0#8 g 0#8 = (g >>> 3) &&& 0x1C#8 := by simp [pack]

theorem pack_blue (b : Byte) : pack 0#8 0#8 b = (b >>> 6) &&& 0x03#8 := by simp [pack]

/-- The channels do not interfere: a packed byte is the or of its channels packed alone (R78 item 5). -/
theorem pack_eq_or (r g b : Byte) :
    pack r g b = pack r 0#8 0#8 ||| pack 0#8 g 0#8 ||| pack 0#8 0#8 b := by
  rw [pack_red, pack_green, pack_blue, pack]

/-- A mask applied before a right shift is the shifted mask applied after it. -/
theorem and_ushiftRight_and (x m : Byte) (n : Nat) : ((x &&& m) >>> n) &&& (m >>> n) = (x >>> n) &&& (m >>> n) := by
  rw [BitVec.ushiftRight_and_distrib, BitVec.and_assoc, BitVec.and_self]

/-- Dropped bits have no effect: the kept bits are those under 0xE0, 0xE0 and 0xC0 (R53, R78 item 4). -/
theorem pack_and_kept (r g b : Byte) : pack (r &&& 0xE0#8) (g &&& 0xE0#8) (b &&& 0xC0#8) = pack r g b := by
  have hr : (r &&& 0xE0#8) &&& 0xE0#8 = r &&& 0xE0#8 := by rw [BitVec.and_assoc, BitVec.and_self]
  have hg : ((g &&& 0xE0#8) >>> 3) &&& 0x1C#8 = (g >>> 3) &&& 0x1C#8 := and_ushiftRight_and g 0xE0#8 3
  have hb : ((b &&& 0xC0#8) >>> 6) &&& 0x03#8 = (b >>> 6) &&& 0x03#8 := and_ushiftRight_and b 0xC0#8 6
  rw [pack, pack, hr, hg, hb]

/-- Masking a byte never exceeds the mask. -/
theorem toNat_and_le (x m : Byte) : (x &&& m).toNat ≤ m.toNat := by
  rw [BitVec.toNat_and]
  exact Nat.and_le_right

/-- Settles O13: the masks keep what `pack` keeps, and each channel alone stays under its own mask. -/
theorem packDropsLowBitsAndSeparatesChannels : Obligations.PackDropsLowBitsAndSeparatesChannels := by
  unfold Obligations.PackDropsLowBitsAndSeparatesChannels
  intro r g b
  refine ⟨(pack_and_kept r g b).symm, pack_eq_or r g b, ?_, ?_, ?_⟩
  · rw [pack_red]; exact toNat_and_le r 0xE0#8
  · rw [pack_green]; exact toNat_and_le (g >>> 3) 0x1C#8
  · rw [pack_blue]; exact toNat_and_le (b >>> 6) 0x03#8

/-- Settles O1: three bytes are encodings, and every byte from 3 up differs from each of them. -/
theorem decoderComparesWithThreeValues : Obligations.DecoderComparesWithThreeValues := by
  unfold Obligations.DecoderComparesWithThreeValues
  exact ⟨decode_encode .validate, decode_encode .packPixel, decode_encode .encode, fun _ => decode_reserved⟩

/-- Settles O2: the decoder is a left inverse of the encoder, and accepts nothing but encodings. -/
theorem decodeInvertsEncode : Obligations.DecodeInvertsEncode := by
  unfold Obligations.DecodeInvertsEncode
  intro i
  exact ⟨instr_wf i, decode_encode i, fun _ => eq_encode_of_decode⟩

/-- Settles O4: the event is a write to register 0, and its value decodes to no operation. -/
theorem reservedCommandIsRefused : Obligations.ReservedCommandIsRefused := by
  unfold Obligations.ReservedCommandIsRefused
  intro s v rest hp h3 hv
  exact (step_event hp).trans (writeCmd_reserved _ h3 (Nat.lt_succ_of_le hv))

end Sys2Proof.Machine

/-! ## Validate family: the dimension check, and the verdict it leaves in `STATUS` -/

namespace Sys2Proof.Machine

/-- The status a completed `VALIDATE` leaves is the verdict on the dimensions (R70). -/
theorem status_of_exec_validate {s t : State} (h : exec .validate s = .next t) :
    t.status = if s.DimsValid then 0x00#8 else 0x01#8 := by
  rw [exec_validate] at h
  cases h
  cases hd : dimsOk s.width s.height with
  | true =>
    rw [if_pos (dimsOk_eq_true.mp hd)]
    exact (status_eq_iff _ 0#2).mpr rfl
  | false =>
    rw [if_neg (dimsOk_eq_false.mp hd)]
    exact (status_eq_iff _ 1#2).mpr rfl

/-- Settles O5: the check is the stated range, and leaving that range is failing one of its three bounds. -/
theorem dimsOkIsTheStatedRange : Obligations.DimsOkIsTheStatedRange := by
  unfold Obligations.DimsOkIsTheStatedRange
  intro w h
  have hout : ¬ (1 ≤ w.toNat ∧ w.toNat ≤ 127 ∧ h.toNat = 8) ↔
      w.toNat = 0 ∨ 127 < w.toNat ∨ h.toNat ≠ 8 := by omega
  exact ⟨dimsOk_eq_true, dimsOk_eq_false.trans hout⟩

/-- Settles O6: the next state of `VALIDATE` replaces the status code only. -/
theorem validateRecordsTheVerdict : Obligations.ValidateRecordsTheVerdict := by
  unfold Obligations.ValidateRecordsTheVerdict
  refine ⟨rfl, fun s => ?_⟩
  have hexec := exec_validate s
  exact ⟨_, hexec, status_of_exec_validate hexec, rfl⟩

/-- Settles O7: the code each state gets is the check on its two dimensions, which are the same. -/
theorem validateLooksAtDimensionsOnly : Obligations.ValidateLooksAtDimensionsOnly := by
  unfold Obligations.ValidateLooksAtDimensionsOnly
  intro s₁ s₂ hw hh
  refine ⟨_, _, exec_validate s₁, exec_validate s₂, ?_⟩
  simp only [State.status, hw, hh]

end Sys2Proof.Machine

/-! ## Packpixel family: the packed byte as bits, as a concatenation of fields, and as a number -/

namespace Sys2Proof.Machine

/-! The masks and shifts of `pack` select whole fields of a channel (R76). -/

/-- A bit of the packed byte is a bit of blue (0, 1), of green (2 to 4) or of red (5 to 7). -/
theorem getLsbD_pack (r g b : Byte) {i : Nat} (hi : i < 8) :
    (pack r g b).getLsbD i =
      if i < 2 then b.getLsbD (i + 6) else if i < 5 then g.getLsbD (i + 3) else r.getLsbD i := by
  rw [pack, BitVec.getLsbD_or, BitVec.getLsbD_or, BitVec.getLsbD_and, BitVec.getLsbD_and, BitVec.getLsbD_and,
    BitVec.getLsbD_ushiftRight, BitVec.getLsbD_ushiftRight, Nat.add_comm 3, Nat.add_comm 6]
  interval_cases i <;> simp

/-- A bit of a concatenation of the three fields, in the same three ranges. -/
theorem getLsbD_fields (r g b : Byte) {i : Nat} (hi : i < 8) :
    (r.extractLsb' 5 3 ++ g.extractLsb' 5 3 ++ b.extractLsb' 6 2).getLsbD i =
      if i < 2 then b.getLsbD (i + 6) else if i < 5 then g.getLsbD (i + 3) else r.getLsbD i := by
  rw [BitVec.getLsbD_append, BitVec.getLsbD_append, BitVec.getLsbD_extractLsb', BitVec.getLsbD_extractLsb',
    BitVec.getLsbD_extractLsb']
  interval_cases i <;> simp

/-- The packed byte is `{red[7:5], green[7:5], blue[7:6]}` (R76). -/
theorem pack_eq_fields (r g b : Byte) :
    pack r g b = r.extractLsb' 5 3 ++ g.extractLsb' 5 3 ++ b.extractLsb' 6 2 :=
  BitVec.eq_of_getLsbD_eq fun _ hi => (getLsbD_pack r g b hi).trans (getLsbD_fields r g b hi).symm

/-- A concatenation as a number: the high part counts in units of the low part's range. -/
theorem toNat_append_eq_add {m n : Nat} (x : BitVec m) (y : BitVec n) :
    (x ++ y).toNat = x.toNat * 2 ^ n + y.toNat := by
  rw [BitVec.toNat_append, ← Nat.shiftLeft_add_eq_or_of_lt y.isLt, Nat.shiftLeft_eq]

/-- The top bits of a byte, from bit `n` up, are its quotient by `2 ^ n`. -/
theorem toNat_topBits (x : Byte) {n len : Nat} (h : n + len = 8) : (x.extractLsb' n len).toNat = x.toNat / 2 ^ n := by
  have hlt : x.toNat / 2 ^ n < 2 ^ len := Nat.div_lt_of_lt_mul (by rw [← Nat.pow_add, h]; exact x.isLt)
  rw [BitVec.extractLsb'_toNat, Nat.shiftRight_eq_div_pow, Nat.mod_eq_of_lt hlt]

/-- The packed byte in whole division (R78 item 2). -/
theorem toNat_pack (r g b : Byte) :
    (pack r g b).toNat = r.toNat / 32 * 32 + g.toNat / 32 * 4 + b.toNat / 64 := by
  have hr : (r.extractLsb' 5 3).toNat = r.toNat / 32 := toNat_topBits r rfl
  have hg : (g.extractLsb' 5 3).toNat = g.toNat / 32 := toNat_topBits g rfl
  have hb : (b.extractLsb' 6 2).toNat = b.toNat / 64 := toNat_topBits b rfl
  rw [pack_eq_fields, toNat_append_eq_add, toNat_append_eq_add, hr, hg, hb]
  omega

/-- Two triples pack to one byte exactly when their kept bits agree, channel by channel (R53). -/
theorem pack_eq_pack_iff {r g b r' g' b' : Byte} :
    pack r g b = pack r' g' b' ↔
      r.toNat / 32 = r'.toNat / 32 ∧ g.toNat / 32 = g'.toNat / 32 ∧ b.toNat / 64 = b'.toNat / 64 := by
  rw [BitVec.toNat_eq, toNat_pack, toNat_pack]
  omega

/-! The triple with no dropped bit set that packs to a given byte (R78 item 3): each field of the byte,
moved back to the top of its channel. -/

def unpackRed (v : Byte) : Byte := BitVec.ofNat 8 (v.toNat / 32 * 32)

def unpackGreen (v : Byte) : Byte := BitVec.ofNat 8 (v.toNat / 4 % 8 * 32)

def unpackBlue (v : Byte) : Byte := BitVec.ofNat 8 (v.toNat % 4 * 64)

@[simp] theorem toNat_unpackRed (v : Byte) : (unpackRed v).toNat = v.toNat / 32 * 32 :=
  (BitVec.toNat_ofNat _ _).trans <| Nat.mod_eq_of_lt (by have := v.isLt; omega)

@[simp] theorem toNat_unpackGreen (v : Byte) : (unpackGreen v).toNat = v.toNat / 4 % 8 * 32 :=
  (BitVec.toNat_ofNat _ _).trans <| Nat.mod_eq_of_lt (by omega)

@[simp] theorem toNat_unpackBlue (v : Byte) : (unpackBlue v).toNat = v.toNat % 4 * 64 :=
  (BitVec.toNat_ofNat _ _).trans <| Nat.mod_eq_of_lt (by omega)

/-- `pack` undoes the unpacking (R78 item 3, existence). -/
theorem pack_unpack (v : Byte) : pack (unpackRed v) (unpackGreen v) (unpackBlue v) = v := by
  apply BitVec.eq_of_toNat_eq
  rw [toNat_pack, toNat_unpackRed, toNat_unpackGreen, toNat_unpackBlue]
  omega

/-- A channel with no dropped bit set is determined by its kept bits. -/
theorem eq_of_div_eq_of_mod_eq_zero {x y : Byte} {n : Nat} (hx : x.toNat % n = 0) (hy : y.toNat % n = 0)
    (h : x.toNat / n = y.toNat / n) : x = y := by
  apply BitVec.eq_of_toNat_eq
  rw [← Nat.div_add_mod x.toNat n, ← Nat.div_add_mod y.toNat n, hx, hy, h]

/-- Settles O10: the first part is the definition, the second `pack_eq_fields`, the bits `getLsbD_pack`. -/
theorem packedByteBitLayout : Obligations.PackedByteBitLayout := by
  unfold Obligations.PackedByteBitLayout
  intro r g b
  have hbit {i : Nat} (hi : i < 8) := getLsbD_pack r g b hi
  exact ⟨rfl, pack_eq_fields r g b, hbit (by decide), hbit (by decide), hbit (by decide), hbit (by decide),
    hbit (by decide), hbit (by decide), hbit (by decide), hbit (by decide)⟩

/-- Settles O11: the fields of the concatenation, as numbers. -/
theorem packedByteIsArithmetic : Obligations.PackedByteIsArithmetic := by
  unfold Obligations.PackedByteIsArithmetic
  exact toNat_pack

/-- Settles O12: the unpacked triple packs to the byte, and a triple with no dropped bit set is determined
by the bits its packed byte keeps. -/
theorem everyByteIsPackedOnce : Obligations.EveryByteIsPackedOnce := by
  unfold Obligations.EveryByteIsPackedOnce
  intro v
  have hr0 : (unpackRed v).toNat % 32 = 0 := by rw [toNat_unpackRed, Nat.mul_mod_left]
  have hg0 : (unpackGreen v).toNat % 32 = 0 := by rw [toNat_unpackGreen, Nat.mul_mod_left]
  have hb0 : (unpackBlue v).toNat % 64 = 0 := by rw [toNat_unpackBlue, Nat.mul_mod_left]
  refine ⟨unpackRed v, unpackGreen v, unpackBlue v, ⟨hr0, hg0, hb0, pack_unpack v⟩, ?_⟩
  intro r' g' b' hr' hg' hb' hpack
  obtain ⟨hr, hg, hb⟩ := pack_eq_pack_iff.mp (hpack.trans (pack_unpack v).symm)
  exact ⟨eq_of_div_eq_of_mod_eq_zero hr' hr0 hr, eq_of_div_eq_of_mod_eq_zero hg' hg0 hg,
    eq_of_div_eq_of_mod_eq_zero hb' hb0 hb⟩

/-- Settles O14: whole division, scaling and addition are each monotone. -/
theorem packIsMonotone : Obligations.PackIsMonotone := by
  unfold Obligations.PackIsMonotone
  intro r g b r' g' b' hr hg hb
  rw [toNat_pack, toNat_pack]
  gcongr

/-- Settles O9: the operation sets `PACKED` to the packed byte of the three channels of `PIXEL_IN`. -/
theorem packPixelPacksTheTriple : Obligations.PackPixelPacksTheTriple := by
  unfold Obligations.PackPixelPacksTheTriple
  exact ⟨encode_packPixel, execPackPixel_eq⟩

end Sys2Proof.Machine

/-! ## Encode family: what a completed `ENCODE` leaves in `OUT` -/

namespace Sys2Proof.Machine

/-- Byte `k` of the PackedImage of width `w` over the pixels of `m` (R55): the header, then the packed
byte of each pixel in address order. -/
def packedByte (m : Memory 24) (w : Nat) : Nat → Option Byte
  | 0 => some 0#8
  | 1 => some (BitVec.ofNat 8 w)
  | a + 2 => (m.read a).map packOf

@[simp] theorem packedByte_zero (m : Memory 24) (w : Nat) : packedByte m w 0 = some 0#8 := rfl

@[simp] theorem packedByte_one (m : Memory 24) (w : Nat) : packedByte m w 1 = some (BitVec.ofNat 8 w) := rfl

@[simp] theorem packedByte_pixel (m : Memory 24) (w a : Nat) :
    packedByte m w (2 + a) = (m.read a).map packOf := by rw [Nat.add_comm]; rfl

/-- Byte 1 alone depends on the width, and the others on the pixels below them. -/
theorem packedByte_congr {m n : Memory 24} {w v k : Nat} (hw : k = 1 → w = v)
    (hpix : ∀ a, 2 + a = k → m.read a = n.read a) : packedByte m w k = packedByte n v k := by
  match k with
  | 0 => rfl
  | 1 => rw [hw rfl]; rfl
  | a + 2 => rw [Nat.add_comm, packedByte_pixel, packedByte_pixel, hpix a (Nat.add_comm 2 a)]

/-- `t` is what `ENCODE` leaves when it completes on the valid dimensions of `s` (R85). -/
structure State.Encoded (s t : State) : Prop where
  grid : s.GridLoaded s.width.toNat
  statusCode : t.statusCode = 0#2
  outLen : t.outLen.toNat = 2 + 8 * s.width.toNat
  image : ∀ k, k < 2 + 8 * s.width.toNat → t.out.read k = packedByte s.pix s.width.toNat k
  above : ∀ k, 2 + 8 * s.width.toNat ≤ k → t.out.read k = s.out.read k
  outWf : s.out.wf 1018 = true → t.out.wf 1018 = true
  fields : t = { s with statusCode := t.statusCode, outLen := t.outLen, out := t.out }

/-- A completed `ENCODE` on valid dimensions found every pixel of the grid. -/
theorem gridLoaded_of_execEncode {s t : State} (hd : s.DimsValid) (h : execEncode s = .next t) :
    s.GridLoaded s.width.toNat := by
  rcases execEncode_cases s with ⟨hbad, -⟩ | ⟨-, hg, -⟩ | ⟨-, a, -, -, he⟩
  · exact absurd hd (dimsOk_eq_false.mp hbad)
  · exact hg
  · rw [he] at h
    cases h

/-- What a completed `ENCODE` on valid dimensions leaves (R85, R90, R91). -/
theorem encoded_of_execEncode {s t : State} (hd : s.DimsValid) (h : execEncode s = .next t) : s.Encoded t := by
  have hg := gridLoaded_of_execEncode hd h
  obtain ⟨m, he, h0, h1, hpix, habove, hwf⟩ := execEncode_valid (dimsOk_eq_true.mpr hd) hg
  obtain ⟨-, hhi, -⟩ := hd
  rw [he] at h
  cases h
  refine ⟨hg, rfl, ?_, ?_, habove, fun hs => hwf 1018 hs (by omega), rfl⟩
  · rw [BitVec.toNat_ofNat, Nat.mod_eq_of_lt (by omega)]
  · intro k hk
    match k with
    | 0 => exact h0
    | 1 => exact h1
    | a + 2 =>
      obtain ⟨p, hp, hr⟩ := hpix a (by omega)
      rw [Nat.add_comm a 2, packedByte_pixel, hp, Option.map_some]
      exact hr

/-- With valid dimensions and a loaded grid `ENCODE` completes. -/
theorem exists_encoded {s : State} (hd : s.DimsValid) (hg : s.GridLoaded s.width.toNat) :
    ∃ t, exec .encode s = .next t ∧ s.Encoded t := by
  obtain ⟨t, ht⟩ := exec_completes (i := .encode) (s := s) fun _ _ => hg
  exact ⟨t, ht, encoded_of_execEncode hd ht⟩

namespace State.Encoded

variable {s t : State}

/-- `STATUS` is `OK` after a completed `ENCODE` on valid dimensions. -/
theorem status (h : s.Encoded t) : t.status = 0x00#8 := (status_eq_iff t 0#2).mpr h.statusCode

/-- The packed byte of the pixel at address `a` stands at `2 + a`. -/
theorem read_pixel (h : s.Encoded t) {a : Nat} (ha : a < 8 * s.width.toNat) :
    t.out.read (2 + a) = (s.pix.read a).map packOf := by
  rw [h.image _ (by omega), packedByte_pixel]

end State.Encoded

/-- Settles O16: the two outcomes of `ENCODE` that complete. -/
theorem encodeProducesThePackedImage : Obligations.EncodeProducesThePackedImage := by
  unfold Obligations.EncodeProducesThePackedImage
  refine ⟨encode_encode, fun s => ⟨fun hbad => ?_, fun hd hg => ?_⟩⟩
  · exact ⟨_, execEncode_invalid (dimsOk_eq_false.mpr hbad), (status_eq_iff _ 1#2).mpr rfl, rfl, rfl⟩
  · obtain ⟨t, ht, henc⟩ := exists_encoded hd hg
    refine ⟨t, ht, henc.status, henc.outLen, ?_, ?_, ?_, henc.above, henc.fields⟩
    · rw [henc.image 0 (by omega), packedByte_zero]
      exact congrArg some (headerHigh_valid hd.2.1).symm
    · rw [henc.image 1 (by omega), packedByte_one]
      exact congrArg some (headerLow_eq s.width).symm
    · intro i j hi hj
      have ha : 8 * i + j < 8 * s.width.toNat := by omega
      obtain ⟨p, hp⟩ := Option.isSome_iff_exists.mp (hg _ ha)
      refine ⟨p, hp, ?_⟩
      rw [Nat.add_assoc, henc.read_pixel ha, hp]
      rfl

/-- Settles O17: the header of a completed `ENCODE`, and its length. -/
theorem headerIsZeroThenWidth : Obligations.HeaderIsZeroThenWidth := by
  unfold Obligations.HeaderIsZeroThenWidth
  intro s t hd h
  have henc := encoded_of_execEncode hd h
  have hbyte : (BitVec.ofNat 8 s.width.toNat).toNat = s.width.toNat := by
    rw [BitVec.toNat_ofNat, Nat.mod_eq_of_lt (by omega)]
  refine ⟨henc.image 0 (by omega), _, henc.image 1 (by omega), hbyte, ?_⟩
  rw [henc.outLen, hbyte]
  omega

/-- Settles O19: with valid dimensions an address that is no address of the header or of a pixel lies above
the PackedImage. -/
theorem encodeStoresOnlyThePackedImage : Obligations.EncodeStoresOnlyThePackedImage := by
  unfold Obligations.EncodeStoresOnlyThePackedImage
  intro s t h
  have hbad : ∀ k, ¬ s.DimsValid → t.out.read k = s.out.read k := by
    intro k hd
    rw [exec_encode, execEncode_invalid (dimsOk_eq_false.mpr hd)] at h
    cases h
    rfl
  refine ⟨hbad, fun k h0 h1 hk => ?_, execEncode_next_fields h⟩
  by_cases hd : s.DimsValid
  · refine (encoded_of_execEncode hd h).above k (Nat.le_of_not_lt fun hlt => ?_)
    refine hk ((k - 2) / 8) ((k - 2) % 8) (by omega) (by omega) ?_
    rw [outIndex]
    omega
  · exact hbad k hd

/-- Settles O20: the grid of the second state is loaded too, and the bytes of the two images are packed
from the same pixels. -/
theorem packedImageDependsOnTheGridOnly : Obligations.PackedImageDependsOnTheGridOnly := by
  unfold Obligations.PackedImageDependsOnTheGridOnly
  intro s₁ s₂ t₁ hd hw hh hpix h₁
  have henc₁ := encoded_of_execEncode hd h₁
  have hd₂ : s₂.DimsValid := by rwa [State.DimsValid, ← hw, ← hh]
  obtain ⟨t₂, h₂, henc₂⟩ := exists_encoded hd₂ fun a ha => by
    rw [← hw] at ha
    rw [← hpix a ha]
    exact henc₁.grid a ha
  refine ⟨t₂, h₂, henc₂.status.trans henc₁.status.symm, ?_, fun k hk => ?_⟩
  · apply BitVec.eq_of_toNat_eq
    rw [henc₁.outLen, henc₂.outLen, hw]
  · rw [henc₁.outLen] at hk
    rw [henc₁.image k hk, henc₂.image k (hw ▸ hk), hw]
    exact packedByte_congr (fun _ => rfl) fun a ha => (hpix a (by omega)).symm

/-- Settles O21: fewer columns are a smaller grid, and only byte 1 shows the width. -/
theorem firstColumnsComeFirst : Obligations.FirstColumnsComeFirst := by
  unfold Obligations.FirstColumnsComeFirst
  intro s t v hd h h1 hv
  have henc := encoded_of_execEncode hd h
  obtain ⟨-, hhi, hh⟩ := hd
  have hdv : State.DimsValid { s with width := v } := ⟨h1, hv.trans hhi, hh⟩
  obtain ⟨u, hu, hencu⟩ := exists_encoded hdv fun a (ha : a < 8 * v.toNat) => henc.grid a (by omega)
  refine ⟨u, hu, hencu.outLen, hencu.image 1 (by omega), fun k hk hk1 => ?_⟩
  rw [hencu.image k hk, henc.image k (by omega)]
  exact packedByte_congr (absurd · hk1) fun _ _ => rfl

/-- A second `ENCODE` on valid dimensions finds the image it would write already in `OUT`. -/
theorem execEncode_twice {s t : State} (hwf : s.out.wf 1018 = true) (hd : s.DimsValid) (h : execEncode s = .next t) :
    execEncode t = .next t := by
  have henc := encoded_of_execEncode hd h
  have hwidth : t.width = s.width := by rw [henc.fields]
  have hheight : t.height = s.height := by rw [henc.fields]
  have hpix : t.pix = s.pix := by rw [henc.fields]
  have hdt : t.DimsValid := by rwa [State.DimsValid, hwidth, hheight]
  have hgt : t.GridLoaded t.width.toNat := by rw [State.GridLoaded, hwidth, hpix]; exact henc.grid
  obtain ⟨u, hu, hencu⟩ := exists_encoded hdt hgt
  have hread : ∀ k, u.out.read k = t.out.read k := by
    intro k
    by_cases hk : k < 2 + 8 * s.width.toNat
    · rw [hencu.image k (hwidth ▸ hk), hwidth, hpix, henc.image k hk]
    · exact hencu.above k (hwidth ▸ Nat.le_of_not_lt hk)
  have hout : u.out = t.out :=
    Memory.eq_of_read_eq (hencu.outWf (henc.outWf hwf)) (henc.outWf hwf) fun k _ => hread k
  have hlen : u.outLen = t.outLen := by
    apply BitVec.eq_of_toNat_eq
    rw [hencu.outLen, henc.outLen, hwidth]
  rw [exec_encode] at hu
  rw [hu, hencu.fields, hout, hlen, hencu.statusCode, ← henc.statusCode]

/-- Settles O22: a rejected `ENCODE` rejects again with the same status and length; a completed one finds
its own image. -/
theorem encodeTwiceIsEncodeOnce : Obligations.EncodeTwiceIsEncodeOnce := by
  unfold Obligations.EncodeTwiceIsEncodeOnce
  intro s t hwf h
  by_cases hd : s.DimsValid
  · exact execEncode_twice hwf hd h
  · have hbad := dimsOk_eq_false.mpr hd
    rw [exec_encode, execEncode_invalid hbad] at h
    cases h
    exact execEncode_invalid hbad

/-- Settles O23: every pixel byte is the packed byte of the one colour. -/
theorem uniformImagePixelBytes : Obligations.UniformImagePixelBytes := by
  unfold Obligations.UniformImagePixelBytes
  intro s p hd hp
  obtain ⟨t, ht, henc⟩ := exists_encoded hd fun a ha => by rw [hp a ha]; rfl
  have hbyte : ∀ k, 2 ≤ k → k < t.outLen.toNat → t.out.read k = some (packOf p) := by
    intro k h2 hk
    rw [henc.outLen] at hk
    obtain ⟨a, rfl⟩ := Nat.exists_eq_add_of_le h2
    rw [henc.read_pixel (by omega), hp a (by omega), Option.map_some]
  have hred : packOf 0xFF0000#24 = 0xE0#8 := by decide
  have hblack : packOf 0x000000#24 = 0x00#8 := by decide
  refine ⟨t, ht, ?_, ?_⟩
  · rintro rfl
    rwa [hred] at hbyte
  · rintro rfl
    rwa [hblack] at hbyte

end Sys2Proof.Machine

/-! ## Encode family: rendering a PackedImage and parsing it back -/

namespace Sys2Proof.Machine

/-- The text after the first opening brace (R109). -/
theorem afterOpen_append {a : Text} (b : Text) (ha : ∀ c ∈ a, c ≠ leftBrace) :
    afterOpen (a ++ leftBrace :: b) = b := by
  rw [afterOpen, List.dropWhile_append_of_pos (by simpa using ha)]
  simp

/-- The text before the last closing brace (R109). -/
theorem beforeClose_append (a : Text) {b : Text} (hb : ∀ c ∈ b, c ≠ rightBrace) :
    beforeClose (a ++ rightBrace :: b) = a := by
  rw [beforeClose, List.reverse_append, List.reverse_cons, List.append_assoc,
    List.dropWhile_append_of_pos (by simpa using hb)]
  simp

theorem dec_ne_comma (v : Nat) : ∀ c ∈ dec v, c ≠ ',' :=
  fun c hc => (isDigit_not_special (dec_isDigit v c hc)).1

theorem blank_ne_comma {t : Text} (h : ∀ c ∈ t, isBlank c = true) : ∀ c ∈ t, c ≠ ',' := by
  rintro c hc rfl
  exact absurd (h _ hc) (by decide)

/-- A character that a text is computed not to hold. -/
theorem ne_of_all_bne {t : Text} {d : Char} (h : t.all (fun c => c != d) = true) : ∀ c ∈ t, c ≠ d := by
  simpa using h

theorem lineBreak_blank : ∀ c ∈ [lineBreak], isBlank c = true := List.forall_mem_singleton.mpr rfl

/-- The opening is some text without an opening brace, and that brace (R101). -/
theorem opening_eq (declareSize : Bool) (n : Nat) :
    ∃ a : Text, opening declareSize n = a ++ [leftBrace] ∧ ∀ c ∈ a, c ≠ leftBrace := by
  refine ⟨openingHead ++ (if declareSize then dec n else []) ++ [']', ' ', '=', ' '], ?_, ?_⟩
  · simp [opening, openingTail]
  · have hhead : ∀ c ∈ openingHead, c ≠ leftBrace := ne_of_all_bne (by decide)
    have hsize : ∀ c ∈ (if declareSize then dec n else []), c ≠ leftBrace := by
      cases declareSize with
      | false => simp
      | true => exact fun c hc => (isDigit_not_special (dec_isDigit n c hc)).2.2.1
    have htail : ∀ c ∈ [']', ' ', '=', ' '], c ≠ leftBrace := ne_of_all_bne (by decide)
    simp only [List.mem_append]
    rintro c ((hc | hc) | hc)
    · exact hhead c hc
    · exact hsize c hc
    · exact htail c hc

/-- A piece that is a numeral in white space reads as its number, before the pieces that follow (R109). -/
theorem readPieces_dec {before after : Text} {rest : List Text} {vs : List Nat} (v : Nat)
    (hb : ∀ c ∈ before, isBlank c = true) (ha : ∀ c ∈ after, isBlank c = true)
    (hrest : readPieces rest = some vs) : readPieces ((before ++ dec v ++ after) :: rest) = some (v :: vs) := by
  simp only [readPieces, strip_dec v before after hb ha, readDecimal_dec, hrest]

/-- A numeral and a comma, after white space, are one piece read (R109). -/
theorem readPieces_dec_comma {before rest : Text} {vs : List Nat} (v : Nat)
    (hb : ∀ c ∈ before, isBlank c = true) (hrest : readPieces (splitCommas rest []) = some vs) :
    readPieces (splitCommas (before ++ dec v ++ ',' :: rest) []) = some (v :: vs) := by
  have hne : ∀ c ∈ before ++ dec v, c ≠ ',' := by
    simp only [List.mem_append]
    rintro c (hc | hc)
    · exact blank_ne_comma hb c hc
    · exact dec_ne_comma v c hc
  rw [splitCommas_comma _ _ _ hne]
  simpa using readPieces_dec (after := []) v hb (by simp) hrest

/-- The last numeral, in white space, is the last piece read (R109). -/
theorem readPieces_dec_end {before after : Text} (v : Nat) (hb : ∀ c ∈ before, isBlank c = true)
    (ha : ∀ c ∈ after, isBlank c = true) : readPieces (splitCommas (before ++ dec v ++ after) []) = some [v] := by
  have hne : ∀ c ∈ before ++ dec v ++ after, c ≠ ',' := by
    simp only [List.mem_append]
    rintro c ((hc | hc) | hc)
    · exact blank_ne_comma hb c hc
    · exact dec_ne_comma v c hc
    · exact blank_ne_comma ha c hc
  rw [splitCommas_end _ _ hne]
  exact readPieces_dec v hb ha rfl

/-- The pixel part, in white space, parses to the pixel values, wherever its lines break (R103, R105). -/
theorem readPieces_renderPixels (wrap : Option Nat) {pixels : List Byte} {before after : Text} (m : Nat)
    (hne : pixels ≠ []) (hb : ∀ c ∈ before, isBlank c = true) (ha : ∀ c ∈ after, isBlank c = true) :
    readPieces (splitCommas (before ++ renderPixels wrap pixels m ++ after) []) = some (pixels.map BitVec.toNat) := by
  induction pixels generalizing before m with
  | nil => exact absurd rfl hne
  | cons b rest ih =>
    cases rest with
    | nil => exact readPieces_dec_end b.toNat hb ha
    | cons c rest =>
      have hbreak : ∀ d ∈ (if breakAfter wrap (m + 1) then [lineBreak] else []), isBlank d = true := by
        cases breakAfter wrap (m + 1) with
        | false => simp
        | true => exact lineBreak_blank
      have htail := ih (m + 1) (List.cons_ne_nil c rest) hbreak
      simpa [renderPixels] using readPieces_dec_comma b.toNat hb htail

/-- Parsing the text of R107 gives the bytes back, with or without a declared size (R109). -/
theorem parse_renderText (declareSize : Bool) (wrap : Option Nat) (hi lo : Byte) {pixels : List Byte}
    (hne : pixels ≠ []) :
    parse (renderText declareSize wrap (hi :: lo :: pixels)) = some ((hi :: lo :: pixels).map BitVec.toNat) := by
  obtain ⟨a, hopen, ha⟩ := opening_eq declareSize (pixels.length + 2)
  have htext : renderText declareSize wrap (hi :: lo :: pixels) = a ++ leftBrace ::
      ((dec hi.toNat ++ ',' :: (dec lo.toNat ++ ',' ::
        ([lineBreak] ++ renderPixels wrap pixels 0 ++ [lineBreak]))) ++ rightBrace :: [';']) := by
    simp [renderText, hopen, closing]
  have hpixels := readPieces_renderPixels wrap 0 hne lineBreak_blank lineBreak_blank
  have hlo := readPieces_dec_comma (before := []) lo.toNat (by simp) hpixels
  rw [parse, htext, afterOpen_append _ ha, beforeClose_append _ (ne_of_all_bne (by decide))]
  exact readPieces_dec_comma (before := []) hi.toNat (by simp) hlo

/-- On its domain `RENDER` gives the text of R107. -/
theorem render_packedImage (declareSize : Bool) {wrap : Option Nat} {p : List Byte} (hw : wrapOk wrap = true)
    (hp : isPackedImage p = true) : render declareSize wrap p = .ok (renderText declareSize wrap p) := by
  simp [render, hw, hp]

/-- Which byte sequences are PackedImages, in numbers (R55). -/
theorem isPackedImage_cons {hi lo : Byte} {pixels : List Byte} :
    isPackedImage (hi :: lo :: pixels) = true ↔
      hi = 0#8 ∧ 1 ≤ lo.toNat ∧ lo.toNat ≤ 127 ∧ pixels.length = 8 * lo.toNat := by
  simp [isPackedImage, and_assoc]

/-- `PARSE` undoes `RENDER` on every PackedImage (R109). -/
theorem exists_render_parse (declareSize : Bool) {wrap : Option Nat} {p : List Byte} (hw : wrapOk wrap = true)
    (hp : isPackedImage p = true) :
    ∃ t, render declareSize wrap p = .ok t ∧ parse t = some (p.map BitVec.toNat) := by
  refine ⟨_, render_packedImage declareSize hw hp, ?_⟩
  match p, hp with
  | hi :: lo :: pixels, hp =>
    obtain ⟨-, hlo, -, hlen⟩ := isPackedImage_cons.mp hp
    exact parse_renderText declareSize wrap hi lo (List.ne_nil_of_length_pos (by omega))

end Sys2Proof.Machine

/-! ## Encode family: the host tool's run over the machine -/

namespace Sys2Proof.Machine

/-! One access of each kind the tool makes, at the head of a run. -/

/-- An access at the head of a run that leaves `t`, but for what is pending. -/
theorem runAccesses_cons_next {e : Event} {es : List Event} {s t : State}
    (h : handle e { s with pending := es } = .next { t with pending := es }) :
    runAccesses (e :: es) s = runAccesses es t :=
  (runAccesses_cons h).trans (runAccesses_pending es es t)

theorem runAccesses_writeWidth {v : Nat} (es : List Event) (s : State) (h : v < 2 ^ 16) :
    runAccesses (.writeReg 2 v :: es) s = runAccesses es (s.setWidth (BitVec.ofNat 16 v)) :=
  runAccesses_cons_next (writeRegister_width _ h)

theorem runAccesses_writeHeight {v : Nat} (es : List Event) (s : State) (h : v < 2 ^ 16) :
    runAccesses (.writeReg 3 v :: es) s = runAccesses es (s.setHeight (BitVec.ofNat 16 v)) :=
  runAccesses_cons_next (writeRegister_height _ h)

theorem runAccesses_writePix {a : Nat} (v : Pixel) (es : List Event) (s : State) (h : a < 1016) :
    runAccesses (.writePix a v :: es) s = runAccesses es (s.storePix a v) :=
  runAccesses_cons_next (writePixel_stores v _ h)

theorem runAccesses_readStatus (es : List Event) (s : State) :
    runAccesses (.readReg 1 :: es) s = runAccesses es (s.answer (.readReg 1) s.status.toNat) :=
  runAccesses_cons_next (readRegister_answers (n := 1) (r := .status) rfl rfl)

theorem runAccesses_readOutLen (es : List Event) (s : State) :
    runAccesses (.readReg 6 :: es) s = runAccesses es (s.answer (.readReg 6) s.outLen.toNat) :=
  runAccesses_cons_next (readRegister_answers (n := 6) (r := .outLen) rfl rfl)

theorem runAccesses_readOut {k : Nat} {v : Byte} (es : List Event) {s : State} (h : k < 1018)
    (hv : s.out.read k = some v) :
    runAccesses (.readOut k :: es) s = runAccesses es (s.answer (.readOut k) v.toNat) :=
  runAccesses_cons_next (readOutByte_answers (s := { s with pending := es }) h hv)

/-- `ENCODE` in a run, on valid dimensions and a loaded grid. -/
theorem runAccesses_encode (es : List Event) {s : State} (hd : s.DimsValid) (hg : s.GridLoaded s.width.toNat) :
    ∃ t, runAccesses (commandEvent .encode :: es) s = runAccesses es t ∧
      State.Encoded { s with pending := es } t := by
  obtain ⟨t, ht, henc⟩ := exists_encoded (s := { s with pending := es }) hd hg
  exact ⟨t, runAccesses_cons ((handle_commandEvent .encode _).trans ht), henc⟩

/-- The host writes of consecutive entries of `PIX` from address `a` on. -/
def pixelWrites (a : Nat) (ps : List Pixel) : List Event := (ps.zipIdx a).map fun x => .writePix x.2 x.1

@[simp] theorem pixelWrites_nil (a : Nat) : pixelWrites a [] = [] := rfl

@[simp] theorem pixelWrites_cons (a : Nat) (p : Pixel) (ps : List Pixel) :
    pixelWrites a (p :: ps) = .writePix a p :: pixelWrites (a + 1) ps := rfl

theorem pixelWrites_append (a : Nat) (ps qs : List Pixel) :
    pixelWrites a (ps ++ qs) = pixelWrites a ps ++ pixelWrites (a + ps.length) qs := by
  simp [pixelWrites, List.zipIdx_append]

/-- One column is loaded to consecutive addresses (R31). -/
theorem loadColumn_eq (i j : Nat) (ps : List Pixel) : loadColumn i j ps = pixelWrites (8 * i + j) ps := by
  induction ps generalizing j with
  | nil => rfl
  | cons p ps ih => rw [loadColumn, ih, pixelWrites_cons, pixAddr, Nat.add_assoc]

/-- Columns of eight rows are loaded to consecutive addresses, one column after another (R31). -/
theorem loadColumns_eq {cs : List (List Pixel)} (i : Nat) (h : ∀ c ∈ cs, c.length = 8) :
    loadColumns i cs = pixelWrites (8 * i) cs.flatten := by
  induction cs generalizing i with
  | nil => rfl
  | cons c cs ih =>
    obtain ⟨hc, hcs⟩ := List.forall_mem_cons.mp h
    rw [loadColumns, loadColumn_eq, ih _ hcs, List.flatten_cons, pixelWrites_append, hc, Nat.mul_succ]
    rfl

/-- Running consecutive pixel writes changes `PIX` only, and leaves there what was written (R32). -/
theorem runAccesses_pixelWrites {ps : List Pixel} {a : Nat} (m : Memory 24) (h : a + ps.length ≤ 1016) :
    ∃ m' : Memory 24,
      (∀ (s : State) (es : List Event), s.pix = m →
        runAccesses (pixelWrites a ps ++ es) s = runAccesses es { s with pix := m' }) ∧
      (∀ n p, ps[n]? = some p → m'.read (a + n) = some p) ∧
      ∀ b, b < a → m'.read b = m.read b := by
  induction ps generalizing a m with
  | nil => exact ⟨m, by rintro s es rfl; rfl, by simp, fun _ _ => rfl⟩
  | cons p ps ih =>
    rw [List.length_cons] at h
    obtain ⟨m', hrun, hread, hbelow⟩ := ih (a := a + 1) (m.write a p) (by omega)
    refine ⟨m', ?_, ?_, ?_⟩
    · rintro s es rfl
      rw [pixelWrites_cons, List.cons_append, runAccesses_writePix p _ _ (by omega)]
      exact hrun _ es rfl
    · intro n q hq
      cases n with
      | zero =>
        cases hq
        rw [Nat.add_zero, hbelow a (by omega), Memory.read_write, if_pos rfl]
      | succ n => rw [← hread n q hq, Nat.add_comm n 1, Nat.add_assoc]
    · intro b hb
      rw [hbelow b (by omega), Memory.read_write, if_neg (by omega)]

/-- Reading back consecutive bytes of `OUT` answers them in order (R145). -/
theorem runAccesses_readOuts {bs : List Byte} {k : Nat} {s : State} (h : k + bs.length ≤ 1018)
    (hread : ∀ n b, bs[n]? = some b → s.out.read (k + n) = some b) :
    ∃ t, runAccesses ((List.range' k bs.length).map .readOut) s = .next t ∧ answerBytes t = answerBytes s ++ bs := by
  induction bs generalizing k s with
  | nil => exact ⟨_, runAccesses_nil s, (List.append_nil _).symm⟩
  | cons b bs ih =>
    rw [List.length_cons] at h
    have hb : s.out.read k = some b := hread 0 b rfl
    have htail : ∀ n c, bs[n]? = some c → s.out.read (k + 1 + n) = some c := by
      intro n c hc
      rw [Nat.add_assoc, Nat.add_comm 1 n]
      exact hread (n + 1) c hc
    rw [List.length_cons, List.range'_succ, List.map_cons, runAccesses_readOut _ (by omega) hb]
    obtain ⟨t, ht, hbytes⟩ := ih (s := s.answer (.readOut k) b.toNat) (by omega) htail
    refine ⟨t, ht, hbytes.trans ?_⟩
    simp [answerBytes, answerValues]

/-- The read-back of a PackedImage that stands in `OUT` (R145). -/
theorem runAccesses_readBack {bs : List Byte} {s : State} (h : bs.length ≤ 1018)
    (hread : ∀ k b, bs[k]? = some b → s.out.read k = some b) :
    ∃ t, runAccesses (readBackAccesses bs.length) { s with answers := [] } = .next t ∧ answerBytes t = bs := by
  rw [readBackAccesses, List.range_eq_range']
  exact runAccesses_readOuts (k := 0) (by omega) (by simpa using hread)

/-! What a well-formed image of valid dimensions is made of. -/

namespace Image

/-- The packed pixels are those of the columns, one after another (R89). -/
theorem packedPixels_eq (img : Image) : img.packedPixels = img.columns.flatten.map packOf := by
  rw [packedPixels, List.flatMap_def, List.map_flatten]

section

variable {img : Image} (hvalid : img.dimsValid = true)

include hvalid

theorem width_div_eq_zero : img.width / 256 = 0 := by
  obtain ⟨-, hhi, -⟩ := (dimsValid_iff img).mp hvalid
  omega

/-- Where `PIX` holds the pixels of the columns in order, the packed bytes are those of the image. -/
theorem packedByte_eq {m : Memory 24} (hm : ∀ n p, img.columns.flatten[n]? = some p → m.read n = some p)
    {k : Nat} {b : Byte} (hb : img.packedImage[k]? = some b) : packedByte m img.width k = some b := by
  match k with
  | 0 => rw [← hb, packedImage, width_div_eq_zero hvalid]; rfl
  | 1 => exact hb
  | a + 2 =>
    have hpix : (img.columns.flatten.map packOf)[a]? = some b := by rwa [← packedPixels_eq]
    rw [List.getElem?_map, Option.map_eq_some_iff] at hpix
    obtain ⟨p, hp, rfl⟩ := hpix
    rw [Nat.add_comm, packedByte_pixel, hm a p hp, Option.map_some]

variable (hwf : img.wf = true)

include hwf

theorem length_of_mem_columns : ∀ c ∈ img.columns, c.length = 8 := by
  obtain ⟨-, -, hh⟩ := (dimsValid_iff img).mp hvalid
  have hall := (Bool.and_eq_true_iff.mp hwf).2
  simpa [hh] using hall

theorem length_flatten_columns : img.columns.flatten.length = 8 * img.width := by
  have hcount : img.columns.length = img.width := by simpa using (Bool.and_eq_true_iff.mp hwf).1
  rw [List.length_flatten, List.map_congr_left (length_of_mem_columns hvalid hwf), List.map_const',
    List.sum_replicate, hcount, smul_eq_mul, Nat.mul_comm]

theorem length_packedImage : img.packedImage.length = 2 + 8 * img.width := by
  rw [packedImage, List.length_cons, List.length_cons, packedPixels_eq, List.length_map,
    length_flatten_columns hvalid hwf, Nat.add_comm 2]

theorem isPackedImage_packedImage : isPackedImage img.packedImage = true := by
  obtain ⟨hlo, hhi, -⟩ := (dimsValid_iff img).mp hvalid
  have hlow : (BitVec.ofNat 8 img.width).toNat = img.width := by
    rw [BitVec.toNat_ofNat, Nat.mod_eq_of_lt (by omega)]
  refine isPackedImage_cons.mpr ⟨by rw [width_div_eq_zero hvalid], by omega, by omega, ?_⟩
  rw [packedPixels_eq, List.length_map, length_flatten_columns hvalid hwf, hlow]

end

end Image

/-- The writes of valid dimensions set the two registers (R141). -/
theorem runAccesses_loadDims {img : Image} (hvalid : img.dimsValid = true) (es : List Event) (s : State) :
    runAccesses (loadDims img ++ es) s =
      runAccesses es ((s.setWidth (BitVec.ofNat 16 img.width)).setHeight (BitVec.ofNat 16 8)) := by
  obtain ⟨-, hhi, hh⟩ := (dimsValid_iff img).mp hvalid
  have hw : dimWritten img.width = img.width := Nat.min_eq_left (by omega)
  have h8 : dimWritten img.height = 8 := by rw [hh]; rfl
  rw [loadDims, hw, h8, List.cons_append, runAccesses_writeWidth _ _ (by omega), List.cons_append,
    runAccesses_writeHeight _ _ (by decide), List.nil_append]

/-- `ENCODE` and the two register reads after it: the status, then the length (R145). -/
theorem runAccesses_encode_then_read {s : State} (hd : s.DimsValid) (hg : s.GridLoaded s.width.toNat) :
    ∃ u, runAccesses [commandEvent .encode, .readReg 1, .readReg 6] s = .next u ∧
      answerValues u = answerValues s ++ [0, 2 + 8 * s.width.toNat] ∧
      ∀ k, k < 2 + 8 * s.width.toNat → u.out.read k = packedByte s.pix s.width.toNat k := by
  obtain ⟨t, ht, henc⟩ := runAccesses_encode [.readReg 1, .readReg 6] hd hg
  have hanswers : t.answers = s.answers := by rw [henc.fields]
  have hstatus : t.status.toNat = 0 := by rw [henc.status]; rfl
  have hlen : t.outLen.toNat = 2 + 8 * s.width.toNat := henc.outLen
  rw [ht, runAccesses_readStatus, runAccesses_readOutLen, runAccesses_nil]
  refine ⟨_, rfl, ?_, henc.image⟩
  simp [answerValues, hanswers, hstatus, hlen]

/-- The loads of a valid image leave its width, the height 8, and its pixels in order in `PIX` (R141, R142). -/
theorem runAccesses_load {img : Image} (hvalid : img.dimsValid = true) (hwf : img.wf = true) (es : List Event) :
    ∃ s : State, runAccesses (loadDims img ++ loadPixels img ++ es) State.reset = runAccesses es s ∧
      s.width.toNat = img.width ∧ s.height.toNat = 8 ∧ s.answers = [] ∧
      ∀ n p, img.columns.flatten[n]? = some p → s.pix.read n = some p := by
  obtain ⟨-, hhi, -⟩ := (dimsValid_iff img).mp hvalid
  have hpixels := Image.length_flatten_columns hvalid hwf
  have hload : loadPixels img = pixelWrites 0 img.columns.flatten := by
    rw [loadPixels, if_pos hvalid, loadColumns_eq 0 (Image.length_of_mem_columns hvalid hwf)]
  have hw : (BitVec.ofNat 16 img.width).toNat = img.width := by
    rw [BitVec.toNat_ofNat, Nat.mod_eq_of_lt (by omega)]
  obtain ⟨m, hrun, hread, -⟩ := runAccesses_pixelWrites (ps := img.columns.flatten) (a := 0) [] (by omega)
  rw [List.append_assoc, runAccesses_loadDims hvalid, hload, hrun _ es rfl]
  exact ⟨_, rfl, hw, rfl, rfl, by simpa using hread⟩

/-- On a valid image the accesses up to the status end with `OK`, the length of the PackedImage, and that
image in `OUT` (R145, R149). -/
theorem runAccesses_encodeAccesses {img : Image} (hvalid : img.dimsValid = true) (hwf : img.wf = true) :
    ∃ u, runAccesses (encodeAccesses img) State.reset = .next u ∧
      answerValues u = [0, img.packedImage.length] ∧
      ∀ k b, img.packedImage[k]? = some b → u.out.read k = some b := by
  obtain ⟨hlo, hhi, -⟩ := (dimsValid_iff img).mp hvalid
  obtain ⟨s, hload, hw, hh, hanswers, hpix⟩ := runAccesses_load hvalid hwf
    [commandEvent .encode, .readReg 1, .readReg 6]
  have hd : s.DimsValid := ⟨by omega, by omega, hh⟩
  have hg : s.GridLoaded s.width.toNat := by
    intro a ha
    rw [hw, ← Image.length_flatten_columns hvalid hwf] at ha
    rw [hpix a _ (List.getElem?_eq_getElem ha)]
    rfl
  obtain ⟨u, hu, hvalues, hout⟩ := runAccesses_encode_then_read hd hg
  rw [hw, ← Image.length_packedImage hvalid hwf] at hvalues hout
  refine ⟨u, hload.trans hu, by simpa [answerValues, hanswers] using hvalues, fun k b hb => ?_⟩
  rw [hout k (List.getElem?_eq_some_iff.mp hb).1, Image.packedByte_eq hvalid hpix hb]

/-- Settles O48: the literal is the rendering of the bytes read back, which are those of the PackedImage. -/
theorem toolDeliversThePackedImage : Obligations.ToolDeliversThePackedImage := by
  unfold Obligations.ToolDeliversThePackedImage
  intro wrap img hw hwf hvalid
  obtain ⟨u, hu, hvalues, hout⟩ := runAccesses_encodeAccesses hvalid hwf
  obtain ⟨hlo, hhi, -⟩ := (dimsValid_iff img).mp hvalid
  have hlen := Image.length_packedImage hvalid hwf
  obtain ⟨v, hv, hbytes⟩ := runAccesses_readBack (by omega) hout
  obtain ⟨t, ht, hparse⟩ := exists_render_parse Config.declareSize hw (Image.isPackedImage_packedImage hvalid hwf)
  refine ⟨t, ?_, rfl, hparse⟩
  simp only [runTool, hu, afterEncode, hvalues, hv, hbytes, renderResult, ht]

end Sys2Proof.Machine

/-! ## Host render family: `RENDER` on and outside its domain, and parsing what it gives -/

namespace Sys2Proof.Machine

/-- Settles O45: `PARSE` undoes `RENDER` on its whole domain. -/
theorem renderThenParseRoundTrip : Obligations.RenderThenParseRoundTrip := by
  unfold Obligations.RenderThenParseRoundTrip
  intro declareSize wrap p hw hp
  exact exists_render_parse declareSize hw hp

/-- `RENDER` gives a text exactly on its domain, and then that of R107 (R111). -/
theorem render_eq_ok_iff {declareSize : Bool} {wrap : Option Nat} {p : List Byte} {t : Text} :
    render declareSize wrap p = .ok t ↔
      wrapOk wrap = true ∧ isPackedImage p = true ∧ renderText declareSize wrap p = t := by
  unfold render
  cases hw : wrapOk wrap with
  | false => simp
  | true => cases hp : isPackedImage p <;> simp

/-- A PackedImage has two header bytes and a whole column at least (R55). -/
theorem exists_of_isPackedImage {p : List Byte} (hp : isPackedImage p = true) :
    ∃ hi lo pixels, p = hi :: lo :: pixels ∧ pixels ≠ [] := by
  match p, hp with
  | hi :: lo :: pixels, hp =>
    obtain ⟨-, hlo, -, hlen⟩ := isPackedImage_cons.mp hp
    exact ⟨hi, lo, pixels, rfl, List.ne_nil_of_length_pos (by omega)⟩

/-- Settles O47: a text would put the wrap and the bytes in the domain, where there are three bytes at least. -/
theorem renderRefusedOutsideItsDomain : Obligations.RenderRefusedOutsideItsDomain := by
  unfold Obligations.RenderRefusedOutsideItsDomain
  intro declareSize wrap p t houtside ht
  obtain ⟨hw, hp, -⟩ := render_eq_ok_iff.mp ht
  obtain ⟨hi, lo, pixels, rfl, hne⟩ := exists_of_isPackedImage hp
  rcases houtside with rfl | hshort | hno
  · exact absurd hw (by decide)
  · have := List.length_pos_of_ne_nil hne
    simp only [List.length_cons] at hshort
    omega
  · exact absurd hp (by simp [hno])

end Sys2Proof.Machine

/-! ## Host render family: the pixel part as lines -/

namespace Sys2Proof.Machine

/-- With a wrap of `w` a line break follows the values whose number `w` divides (R105). -/
theorem breakAfter_some {w m : Nat} : breakAfter (some w) m = true ↔ w ∣ m := by
  simp [breakAfter, Nat.dvd_iff_mod_eq_zero]

/-- No line break falls strictly between a multiple of the wrap and the next one. -/
theorem breakAfter_between {w m k : Nat} (hm : w ∣ m) (hlo : m < k) (hhi : k < m + w) :
    breakAfter (some w) k = false := by
  rw [← Bool.not_eq_true, breakAfter_some]
  intro hk
  have hgap : w ∣ k - m := Nat.dvd_sub hk hm
  have := Nat.le_of_dvd (by omega) hgap
  omega

@[simp] theorem lineText_singleton (b : Byte) : lineText [b] = dec b.toNat := by simp [lineText]

@[simp] theorem lineText_cons_cons (b c : Byte) (rest : List Byte) :
    lineText (b :: c :: rest) = dec b.toNat ++ [','] ++ lineText (c :: rest) := by simp [lineText]

/-- Pixel values among which no line break falls are one line (R103, R105). -/
theorem renderPixels_eq_lineText {wrap : Option Nat} {xs : List Byte} {m : Nat}
    (h : ∀ k, m < k → k < m + xs.length → breakAfter wrap k = false) : renderPixels wrap xs m = lineText xs := by
  induction xs generalizing m with
  | nil => rfl
  | cons b xs ih =>
    cases xs with
    | nil => rw [renderPixels, lineText_singleton]
    | cons c rest =>
      simp only [List.length_cons] at h ih
      have hfirst : breakAfter wrap (m + 1) = false := h (m + 1) (by omega) (by omega)
      rw [renderPixels, hfirst, ih fun k hlo hhi => h k (by omega) (by omega)]
      simp

/-- Where the pixel part is cut in two there is a comma, and a line break if one falls there (R103, R105). -/
theorem renderPixels_append {wrap : Option Nat} {xs ys : List Byte} {m : Nat} (hx : xs ≠ []) (hy : ys ≠ []) :
    renderPixels wrap (xs ++ ys) m =
      renderPixels wrap xs m ++ [','] ++ (if breakAfter wrap (m + xs.length) then [lineBreak] else []) ++
        renderPixels wrap ys (m + xs.length) := by
  induction xs generalizing m with
  | nil => exact absurd rfl hx
  | cons b xs ih =>
    cases xs with
    | nil =>
      obtain ⟨c, rest, rfl⟩ := List.exists_cons_of_ne_nil hy
      rfl
    | cons c rest =>
      have hlen : m + (b :: c :: rest).length = m + 1 + (c :: rest).length := by
        simp only [List.length_cons]
        omega
      rw [hlen, List.cons_append, List.cons_append, renderPixels, ← List.cons_append,
        ih (List.cons_ne_nil c rest), renderPixels]
      simp only [List.append_assoc]

theorem linesOf_ne_nil {α : Type} (w fuel : Nat) (l : List α) : linesOf w fuel l ≠ [] := by
  cases fuel with
  | zero => simp [linesOf]
  | succ fuel => rw [linesOf]; split <;> simp

/-- From the start of a line on, the pixel part is its lines, each but the last closed by a comma and a
line break (R105). -/
theorem renderPixels_eq_lines {w fuel : Nat} {l : List Byte} {m : Nat} (hw : 1 ≤ w) (hm : w ∣ m)
    (hl : l.length ≤ fuel) :
    renderPixels (some w) l m = List.intercalate [',', lineBreak] ((linesOf w fuel l).map lineText) := by
  induction fuel generalizing l m with
  | zero =>
    obtain rfl : l = [] := List.length_eq_zero_iff.mp (by omega)
    rfl
  | succ fuel ih =>
    rw [linesOf]
    split
    · rename_i hshort
      rw [renderPixels_eq_lineText fun k hlo hhi => breakAfter_between hm hlo (by omega)]
      simp
    · rename_i hlong
      have htake : (l.take w).length = w := List.length_take_of_le (by omega)
      have hdrop : (l.drop w).length = l.length - w := List.length_drop
      have hbreak : breakAfter (some w) (m + w) = true := breakAfter_some.mpr (Nat.dvd_add hm (Nat.dvd_refl w))
      have hline : renderPixels (some w) (l.take w) m = lineText (l.take w) :=
        renderPixels_eq_lineText fun k hlo hhi => breakAfter_between hm hlo (by omega)
      have hrest := ih (l := l.drop w) (Nat.dvd_add hm (Nat.dvd_refl w)) (by omega)
      conv_lhs => rw [← List.take_append_drop w l]
      rw [renderPixels_append (List.ne_nil_of_length_pos (by omega)) (List.ne_nil_of_length_pos (by omega)),
        htake, hbreak, hline, hrest, List.map_cons,
        List.intercalate_cons_of_ne_nil (by simpa using linesOf_ne_nil w fuel (l.drop w))]
      simp

/-- The pixel part is the text of its lines, for every wrap setting (R105). -/
theorem renderPixels_eq_pixelPartText {wrap : Option Nat} (hw : wrapOk wrap = true) (pixels : List Byte) :
    renderPixels wrap pixels 0 = pixelPartText wrap pixels := by
  cases wrap with
  | none => exact renderPixels_eq_lineText fun _ _ _ => rfl
  | some w => exact renderPixels_eq_lines (of_decide_eq_true hw) (Nat.dvd_zero w) (Nat.le_refl _)

/-- Settles O44: the text of R107 with its pixel part as lines. -/
theorem renderedTextLines : Obligations.RenderedTextLines := by
  unfold Obligations.RenderedTextLines
  intro wrap hi lo pixels hw hp
  refine ⟨rfl, ?_⟩
  rw [render_packedImage false hw hp, renderText, renderPixels_eq_pixelPartText hw, opening, closing]
  simp

end Sys2Proof.Machine

/-! ## Host render family: the separators of a rendered text, counted -/

namespace Sys2Proof.Machine

/-- How many line breaks fall after the first `m` pixel values (R105). -/
def breaksWithin : Option Nat → Nat → Nat
  | none, _ => 0
  | some w, m => m / w

@[simp] theorem breaksWithin_zero (wrap : Option Nat) : breaksWithin wrap 0 = 0 := by
  cases wrap with
  | none => rfl
  | some w => exact Nat.zero_div w

theorem breaksWithin_succ (wrap : Option Nat) (m : Nat) :
    breaksWithin wrap (m + 1) = breaksWithin wrap m + if breakAfter wrap (m + 1) then 1 else 0 := by
  cases wrap with
  | none => rfl
  | some w => simp only [breaksWithin, Nat.succ_div, breakAfter_some]

theorem dec_ne_lineBreak (v : Nat) : ∀ c ∈ dec v, c ≠ lineBreak := by
  intro c hc
  obtain ⟨-, -, -, -, hne⟩ := isDigit_not_special (dec_isDigit v c hc)
  exact hne

@[simp] theorem count_comma_dec (v : Nat) : (dec v).count ',' = 0 :=
  List.count_eq_zero_of_not_mem fun h => dec_ne_comma v _ h rfl

@[simp] theorem count_lineBreak_dec (v : Nat) : (dec v).count lineBreak = 0 :=
  List.count_eq_zero_of_not_mem fun h => dec_ne_lineBreak v _ h rfl

/-- A comma follows every pixel value but the last (R103). -/
theorem count_comma_renderPixels (wrap : Option Nat) (pixels : List Byte) (m : Nat) :
    (renderPixels wrap pixels m).count ',' = pixels.length - 1 := by
  induction pixels generalizing m with
  | nil => rfl
  | cons b pixels ih =>
    cases pixels with
    | nil => rw [renderPixels, count_comma_dec]; rfl
    | cons c rest =>
      have hbreak : (if breakAfter wrap (m + 1) then [lineBreak] else []).count ',' = 0 := by
        cases breakAfter wrap (m + 1) <;> rfl
      simp [renderPixels, ih, hbreak, Nat.add_comm]

/-- The line breaks of the pixel part: those that fall before its last value (R105). -/
theorem count_lineBreak_renderPixels (wrap : Option Nat) {pixels : List Byte} (m : Nat) (hne : pixels ≠ []) :
    breaksWithin wrap m + (renderPixels wrap pixels m).count lineBreak =
      breaksWithin wrap (m + (pixels.length - 1)) := by
  induction pixels generalizing m with
  | nil => exact absurd rfl hne
  | cons b pixels ih =>
    cases pixels with
    | nil => rw [renderPixels, count_lineBreak_dec]; rfl
    | cons c rest =>
      have hcomma : [','].count lineBreak = 0 := rfl
      have hbreak : (if breakAfter wrap (m + 1) then [lineBreak] else []).count lineBreak =
          if breakAfter wrap (m + 1) then 1 else 0 := by
        cases breakAfter wrap (m + 1) <;> rfl
      have hlen : m + ((b :: c :: rest).length - 1) = m + 1 + ((c :: rest).length - 1) := by
        simp only [List.length_cons]
        omega
      rw [hlen, ← ih (m + 1) (List.cons_ne_nil c rest), breaksWithin_succ, renderPixels]
      simp only [List.count_append, count_lineBreak_dec, hcomma, hbreak]
      omega

/-- The commas of a text: one after each header byte, and those between the pixel values (R103, R114). -/
theorem count_comma_renderText (wrap : Option Nat) (hi lo : Byte) {pixels : List Byte} (hne : pixels ≠ []) :
    (renderText false wrap (hi :: lo :: pixels)).count ',' = pixels.length + 1 := by
  have hopening : (opening false (pixels.length + 2)).count ',' = 0 := rfl
  have hseparators : [','].count ',' = 1 ∧ [lineBreak].count ',' = 0 ∧ closing.count ',' = 0 := ⟨rfl, rfl, rfl⟩
  have hpos := List.length_pos_of_ne_nil hne
  simp only [renderText, List.count_append, count_comma_dec, count_comma_renderPixels, hopening, hseparators]
  omega

/-- The line breaks of a text: after the header, before the close, and those between the pixel values
(R104, R106, R114). -/
theorem count_lineBreak_renderText (wrap : Option Nat) (hi lo : Byte) {pixels : List Byte} (hne : pixels ≠ []) :
    (renderText false wrap (hi :: lo :: pixels)).count lineBreak = 2 + breaksWithin wrap (pixels.length - 1) := by
  have hopening : (opening false (pixels.length + 2)).count lineBreak = 0 := rfl
  have hseparators : [','].count lineBreak = 0 ∧ [lineBreak].count lineBreak = 1 ∧ closing.count lineBreak = 1 :=
    ⟨rfl, rfl, rfl⟩
  have hpixels := count_lineBreak_renderPixels wrap 0 hne
  rw [breaksWithin_zero, Nat.zero_add, Nat.zero_add] at hpixels
  simp only [renderText, List.count_append, count_lineBreak_dec, hopening, hseparators, hpixels]
  omega

/-- Settles O46: the separators of the header and the close, and those of the pixel part. -/
theorem renderSeparatorCounts : Obligations.RenderSeparatorCounts := by
  unfold Obligations.RenderSeparatorCounts
  intro wrap p t ht
  obtain ⟨-, hp, rfl⟩ := render_eq_ok_iff.mp ht
  obtain ⟨hi, lo, pixels, rfl, hne⟩ := exists_of_isPackedImage hp
  refine ⟨count_comma_renderText wrap hi lo hne, ?_⟩
  rw [count_lineBreak_renderText wrap hi lo hne]
  cases wrap <;> rfl

end Sys2Proof.Machine

/-! ## Host render family: numerals -/

namespace Sys2Proof.Machine

/-- The characters of a numeral in numbers: 0x30 to 0x39, which is how `digitVal` reads them. -/
theorem isDigit_toNat {c : Char} (h : isDigit c) :
    '0'.toNat ≤ c.toNat ∧ c.toNat ≤ '9'.toNat ∧ digitVal c = some (c.toNat - '0'.toNat) := by
  obtain ⟨d, hd, rfl⟩ := h
  revert d
  decide

theorem digitChar_ne_zero : ∀ d, d < 10 → d ≠ 0 → digitChar d ≠ '0' := by decide

/-- The numeral of a number that is not 0 does not begin with 0 (R102). -/
theorem decDigits_first {fuel v : Nat} (hv : v ≠ 0) (h : v ≤ fuel) :
    ∃ c rest, decDigits fuel v = c :: rest ∧ c ≠ '0' := by
  induction fuel generalizing v with
  | zero => omega
  | succ fuel ih =>
    rw [decDigits]
    split
    · rename_i hlt
      exact ⟨_, _, rfl, digitChar_ne_zero v hlt hv⟩
    · obtain ⟨c, rest, heq, hc⟩ := ih (v := v / 10) (by omega) (by omega)
      exact ⟨c, rest ++ [digitChar (v % 10)], by rw [heq]; rfl, hc⟩

/-- A number below `10 ^ (n + 1)` has at most `n + 1` digits. -/
theorem length_decDigits_le (fuel : Nat) {v n : Nat} (h : v < 10 ^ (n + 1)) :
    (decDigits fuel v).length ≤ n + 1 := by
  induction fuel generalizing v n with
  | zero => simp [decDigits]
  | succ fuel ih =>
    rw [decDigits]
    split
    · simp
    · cases n with
      | zero => omega
      | succ n =>
        have := ih (v := v / 10) (n := n) (by rw [Nat.pow_succ] at h; omega)
        simpa using this

/-- Reading digits never fails, and is the fold of their values, most significant first. -/
theorem readDigits_eq_foldl {t : Text} (h : ∀ c ∈ t, isDigit c) (acc : Nat) :
    readDigits t acc = some (t.foldl (fun n c => 10 * n + (c.toNat - '0'.toNat)) acc) := by
  induction t generalizing acc with
  | nil => rfl
  | cons c rest ih =>
    obtain ⟨hc, hrest⟩ := List.forall_mem_cons.mp h
    obtain ⟨-, -, hval⟩ := isDigit_toNat hc
    simp only [readDigits, hval, ih hrest, List.foldl_cons]

theorem readDecimal_of_ne_nil {t : Text} (h : t ≠ []) : readDecimal t = readDigits t 0 := by
  obtain ⟨c, rest, rfl⟩ := List.exists_cons_of_ne_nil h
  rfl

/-- The digits of a numeral, most significant first, give its number (R102). -/
theorem foldl_dec (v : Nat) : (dec v).foldl (fun n c => 10 * n + (c.toNat - '0'.toNat)) 0 = v := by
  have h := readDecimal_dec v
  rw [readDecimal_of_ne_nil (dec_ne_nil v), readDigits_eq_foldl (dec_isDigit v)] at h
  exact Option.some.inj h

/-- Settles O51: the characters, the first of them, the value, and the length of a numeral. -/
theorem numeralsAreShortestDecimal : Obligations.NumeralsAreShortestDecimal := by
  unfold Obligations.NumeralsAreShortestDecimal
  refine ⟨rfl, fun v => ⟨fun c hc => ?_, fun hv => decDigits_first hv (Nat.le_refl v), foldl_dec v,
    readDecimal_dec v, fun hv => ⟨?_, ?_⟩⟩⟩
  · obtain ⟨hlo, hhi, -⟩ := isDigit_toNat (dec_isDigit v c hc)
    exact ⟨hlo, hhi⟩
  · exact List.length_pos_of_ne_nil (dec_ne_nil v)
  · exact length_decDigits_le (n := 2) v (by omega)

end Sys2Proof.Machine

/-! ## Host render family: the tool on an image of invalid dimensions -/

namespace Sys2Proof.Machine

/-- What is written for a dimension is a number its register can hold (R141). -/
theorem dimWritten_lt (n : Nat) : dimWritten n < 2 ^ 16 := Nat.lt_succ_of_le (Nat.min_le_right n 0xFFFF)

/-- What is written for a dimension passes the dimension check exactly where the true one does (R141). -/
theorem dimsOk_dimWritten (img : Image) :
    dimsOk (BitVec.ofNat 16 (dimWritten img.width)) (BitVec.ofNat 16 (dimWritten img.height)) = img.dimsValid := by
  rw [Bool.eq_iff_iff, dimsOk_eq_true, dimsValid_iff, BitVec.toNat_ofNat, BitVec.toNat_ofNat,
    Nat.mod_eq_of_lt (dimWritten_lt _), Nat.mod_eq_of_lt (dimWritten_lt _)]
  unfold dimWritten
  omega

/-- The writes of any dimensions set the two registers (R141). -/
theorem runAccesses_loadDims_written (img : Image) (es : List Event) (s : State) :
    runAccesses (loadDims img ++ es) s =
      runAccesses es ((s.setWidth (BitVec.ofNat 16 (dimWritten img.width))).setHeight
        (BitVec.ofNat 16 (dimWritten img.height))) := by
  rw [loadDims, List.cons_append, runAccesses_writeWidth _ _ (dimWritten_lt _), List.cons_append,
    runAccesses_writeHeight _ _ (dimWritten_lt _), List.nil_append]

/-- `ENCODE` on invalid dimensions and the two register reads after it: code 1, then length 0 (R118, R145). -/
theorem runAccesses_encode_invalid_then_read {s : State} (hd : dimsOk s.width s.height = false) :
    ∃ u, runAccesses [commandEvent .encode, .readReg 1, .readReg 6] s = .next u ∧
      answerValues u = answerValues s ++ [1, 0] := by
  have hencode : runAccesses [commandEvent .encode, .readReg 1, .readReg 6] s =
      runAccesses [.readReg 1, .readReg 6] { s with statusCode := 1#2, outLen := 0#16 } :=
    runAccesses_cons_next ((handle_commandEvent .encode _).trans (execEncode_invalid hd))
  rw [hencode, runAccesses_readStatus, runAccesses_readOutLen, runAccesses_nil]
  refine ⟨_, rfl, ?_⟩
  simp [answerValues, State.status]

/-- On an image of invalid dimensions the accesses up to the status end with code 1 and length 0 (R118). -/
theorem runAccesses_encodeAccesses_invalid {img : Image} (hvalid : img.dimsValid = false) :
    ∃ u, runAccesses (encodeAccesses img) State.reset = .next u ∧ answerValues u = [1, 0] := by
  have hload : loadPixels img = [] := by rw [loadPixels, hvalid]; rfl
  rw [encodeAccesses, hload, List.append_nil, runAccesses_loadDims_written]
  exact runAccesses_encode_invalid_then_read ((dimsOk_dimWritten img).trans hvalid)

/-- Settles O49: the status read is 1, so the tool reports the error and renders nothing. -/
theorem toolReportsInvalidDimensions : Obligations.ToolReportsInvalidDimensions := by
  unfold Obligations.ToolReportsInvalidDimensions
  intro wrap img hvalid
  obtain ⟨u, hu, hvalues⟩ := runAccesses_encodeAccesses_invalid hvalid
  refine ⟨?_, rfl, rfl⟩
  simp only [runTool, hu, afterEncode, hvalues]

end Sys2Proof.Machine

/-! ## Exceptions family: when `InvalidDimensions` is raised, what it writes, and that nothing of it stays -/

namespace Sys2Proof.Machine

/-- The status a completed `ENCODE` leaves is the verdict on the dimensions, as for `VALIDATE` (R87). -/
theorem status_of_exec_encode {s t : State} (h : exec .encode s = .next t) :
    t.status = if s.DimsValid then 0x00#8 else 0x01#8 := by
  rw [exec_encode] at h
  by_cases hd : s.DimsValid
  · rw [if_pos hd]
    exact (encoded_of_execEncode hd h).status
  · rw [execEncode_invalid (dimsOk_eq_false.mpr hd)] at h
    cases h
    rw [if_neg hd]
    exact (status_eq_iff _ 1#2).mpr rfl

/-- A verdict is `InvalidDimensions` exactly where the condition it is on fails (R19). -/
theorem verdict_eq_invalidDimensions_iff {p : Prop} [Decidable p] :
    (if p then 0x00#8 else 0x01#8) = 0x01#8 ↔ ¬ p := by
  by_cases hp : p <;> simp [hp]

/-- Settles O31: `VALIDATE` and `ENCODE` leave the verdict on the dimensions; `PACKPIXEL` writes `PACKED` only. -/
theorem invalidDimensionsExactlyWhenInvalid : Obligations.InvalidDimensionsExactlyWhenInvalid := by
  unfold Obligations.InvalidDimensionsExactlyWhenInvalid
  intro s t
  refine ⟨fun h => ?_, fun h => ?_, fun h => ?_⟩
  · rw [status_of_exec_validate h]
    exact verdict_eq_invalidDimensions_iff
  · rw [status_of_exec_encode h]
    exact verdict_eq_invalidDimensions_iff
  · rw [exec_packPixel] at h
    cases h
    rfl

/-- Settles O15: on invalid dimensions the check fails, and both operations take their raising branch. -/
theorem invalidDimensionsEffect : Obligations.InvalidDimensionsEffect := by
  unfold Obligations.InvalidDimensionsEffect
  intro s hbad
  have hd : dimsOk s.width s.height = false := dimsOk_eq_false.mpr hbad
  refine ⟨?_, execEncode_invalid hd⟩
  rw [exec_validate, hd]
  rfl

/-- `VALIDATE` at the head of a run records the verdict (R70). -/
theorem runAccesses_validate (es : List Event) (s : State) :
    runAccesses (commandEvent .validate :: es) s =
      runAccesses es { s with statusCode := if dimsOk s.width s.height then 0#2 else 1#2 } :=
  runAccesses_cons_next ((handle_commandEvent .validate _).trans (exec_validate _))

/-- As many steps as accesses are pending are the run of those accesses. -/
theorem run_eq_runAccesses {s : State} {es : List Event} (hp : s.pending = es) :
    Host.Core.run Sys2Proof.core es.length s = runAccesses es s := by
  subst hp
  rfl

/-- Settles O8: the two writes replace both dimensions, and `VALIDATE` looks at nothing older. -/
theorem verdictIsNotSticky : Obligations.VerdictIsNotSticky := by
  unfold Obligations.VerdictIsNotSticky
  intro s w hlo hhi hp
  have hok : dimsOk (BitVec.ofNat 16 w) 8#16 = true := by
    refine dimsOk_eq_true.mpr ⟨?_, ?_, rfl⟩ <;> rw [BitVec.toNat_ofNat] <;> omega
  have hrun : runAccesses [.writeReg 2 w, .writeReg 3 8, commandEvent .validate] s =
      .next { (s.setWidth (BitVec.ofNat 16 w)).setHeight 8#16 with statusCode := 0#2, pending := [] } := by
    rw [runAccesses_writeWidth _ _ (by omega), runAccesses_writeHeight _ _ (by decide), runAccesses_validate,
      runAccesses_nil]
    simp only [State.setHeight_width, State.setWidth_width, State.setHeight_height, hok, if_true]
  exact ⟨_, (run_eq_runAccesses hp).trans hrun, (status_eq_iff _ 0#2).mpr rfl, rfl, rfl, rfl⟩

/-- Settles O42: with nothing pending a turn takes no event. -/
theorem idleBlockHoldsItsState : Obligations.IdleBlockHoldsItsState := by
  unfold Obligations.IdleBlockHoldsItsState
  exact fun _ => step_idle

/-- Settles O50: without an image the tool does not touch the block, and its exit code is a successor,
whatever number the free value is. -/
theorem toolExitsNonZeroOnDecodeFailure : Obligations.ToolExitsNonZeroOnDecodeFailure := by
  unfold Obligations.ToolExitsNonZeroOnDecodeFailure
  exact fun wrap => ⟨rfl, Nat.succ_ne_zero Config.exitDecodePred⟩

end Sys2Proof.Machine

/-! ## Reset family: reset in any state, and reading back a legal output -/

namespace Sys2Proof.Machine

/-- Settles O25: the event taken off the list is reset, and `resetBlock` leaves the host's two lists alone. -/
theorem resetEventResetsTheBlock : Obligations.ResetEventResetsTheBlock := by
  unfold Obligations.ResetEventResetsTheBlock
  intro s rest hp
  calc step s = handle .reset { s with pending := rest } := step_event hp
    _ = .next { State.reset with pending := rest, answers := s.answers } := rfl

/-- Below `OUT_LEN` a legal output lists every byte, at an address that `OUT` has (R23, R35). -/
theorem State.OutputLegal.read_below_outLen {s : State} {k : Nat} (hs : s.OutputLegal)
    (hk : k < s.outLen.toNat) : k < 1018 ∧ ∃ v, s.out.read k = some v := by
  obtain hzero | ⟨w, -, hw, hlen, -, -, hbytes⟩ := hs
  · simp [hzero] at hk
  · rw [hlen] at hk
    exact ⟨by omega, Option.isSome_iff_exists.mp (hbytes k hk)⟩

/-- Settles O37: below `OUT_LEN` the byte exists and holds a value, so its read answers. -/
theorem bytesBelowOutLenCanBeRead : Obligations.BytesBelowOutLenCanBeRead := by
  unfold Obligations.BytesBelowOutLenCanBeRead
  intro s k rest hs hp hk
  obtain ⟨hsize, v, hv⟩ := hs.read_below_outLen hk
  exact ⟨v, hv, (step_event hp).trans (readOutByte_answers hsize hv)⟩

end Sys2Proof.Machine
